-- ==== Sys2Proof/Word.lean ====
section
/-! DEFINITION. The widths of the block (spec/00_scope.md R6, R8). -/

namespace Sys2Proof

/-- `u32`: hash values, the accumulator, storage words, `CMD` and `DATA` (R6, R70). -/
abbrev Word := BitVec 32

/-- `u16`: a UTF-16 code unit, `imm16`, and `K[s]` (R6, R25, R78). -/
abbrev Half := BitVec 16

/-- A 4-bit slot field of a command word (R78). -/
abbrev SlotNo := BitVec 4

end Sys2Proof
end

