-- ==== Sys2Proof/Syntax.lean ====
section
/-! DEFINITION. The commands of the block (spec/30_encoding.md): one constructor for each row of the
opcode map (R80), and the assembler's lines (R84, R85). -/

namespace Sys2Proof

/-- One command transaction on the port: `CMD` and `DATA` (R70). -/
structure Command where
  word : Word
  data : Word
deriving DecidableEq, Repr

/-- The operations of the opcode map (R80). -/
inductive Op where
  | nop | hinit | hunit | hload | hread | remix | index | config | add | test | rdword | rdm | rdk
  | union | intersect
deriving DecidableEq, Repr

/-- The five formats of a command word (R73). -/
inductive Format where
  | N | H | S | SI | T
deriving DecidableEq, Repr

/-- A decoded command: the operation with its field operands and, where the row uses it, `DATA`
(R78, R80). Every operand has exactly the width of its field. -/
inductive Instr where
  | nop
  | hinit
  | hunit (u : Half)
  | hload (v : Word)
  | hread
  | remix
  | index (s : SlotNo) (i : Half)
  | config (s : SlotNo) (k : Half) (bits : Word)
  | add (s : SlotNo)
  | test (s : SlotNo)
  | rdword (s : SlotNo) (w : Word)
  | rdm (s : SlotNo)
  | rdk (s : SlotNo)
  | union (d a b : SlotNo)
  | intersect (d a b : SlotNo)
deriving DecidableEq, Repr

/-- The operation of an instruction. -/
def Instr.op : Instr → Op
  | .nop => .nop
  | .hinit => .hinit
  | .hunit _ => .hunit
  | .hload _ => .hload
  | .hread => .hread
  | .remix => .remix
  | .index _ _ => .index
  | .config _ _ _ => .config
  | .add _ => .add
  | .test _ => .test
  | .rdword _ _ => .rdword
  | .rdm _ => .rdm
  | .rdk _ => .rdk
  | .union _ _ _ => .union
  | .intersect _ _ _ => .intersect

/-- The format of an operation (R80's column). -/
def Op.format : Op → Format
  | .nop | .hinit | .hload | .hread | .remix => .N
  | .hunit => .H
  | .add | .test | .rdword | .rdm | .rdk => .S
  | .index | .config => .SI
  | .union | .intersect => .T

/-- Whether an operation uses `DATA` (R80's column). -/
def Op.usesData : Op → Bool
  | .hload | .config | .rdword => true
  | .nop | .hinit | .hunit | .hread | .remix | .index | .add | .test | .rdm | .rdk | .union
  | .intersect => false

/-- A line of assembler after reading: a command of R84, with the numbers as written, or a
pseudo-command of R85. -/
inductive AsmLine where
  | nop
  | hinit
  | hunit (u : Nat)
  | hload (v : Nat)
  | hread
  | remix
  | index (s i : Nat)
  | config (s : Nat) (bits : Int) (k : Nat)
  | add (s : Nat)
  | test (s : Nat)
  | rdword (s w : Nat)
  | rdm (s : Nat)
  | rdk (s : Nat)
  | union (d a b : Nat)
  | intersect (d a b : Nat)
  | hstr (text : List Char)
  | hnum (n : Int)
  | addstr (s : Nat) (text : List Char)
  | teststr (s : Nat) (text : List Char)
  | addnum (s : Nat) (n : Int)
  | testnum (s : Nat) (n : Int)
deriving DecidableEq, Repr

end Sys2Proof
end

