-- ==== Sys2Proof/WellFormed.lean ====
section
/-! DEFINITION. The assembler's checks (spec/30_encoding.md R84): "An operand that does not fit its
field (a slot above 15, `u`, `i` or `k` above 65535, `bits` outside `-2^31 .. 2^31-1`) is an assembly
error". A decoded `Instr` needs no check: each operand has its field's width by type. -/

namespace Sys2Proof

/-- A slot number that fits the 4-bit field. -/
def slotFits (s : Nat) : Bool := s ≤ 15

/-- A number that fits `imm16`. -/
def immFits (n : Nat) : Bool := n ≤ 65535

/-- A number that fits `DATA` as a `u32`. DEDUCED (log entry 14): R84 gives HLOAD's `v` as a u32 and
RDWORD's `w` as the whole of `DATA`. -/
def dataFits (n : Nat) : Bool := n < 2 ^ 32

/-- A bit count that fits `DATA` as a 32-bit two's-complement pattern. -/
def bitsFit (n : Int) : Bool := -2 ^ 31 ≤ n && n ≤ 2 ^ 31 - 1

/-- Every operand of the line fits its field (R84). -/
def AsmLine.wellFormed : AsmLine → Bool
  | .nop | .hinit | .hread | .remix => true
  | .hunit u => immFits u
  | .hload v => dataFits v
  | .index s i => slotFits s && immFits i
  | .config s bits k => slotFits s && bitsFit bits && immFits k
  | .add s | .test s | .rdm s | .rdk s => slotFits s
  | .rdword s w => slotFits s && dataFits w
  | .union d a b | .intersect d a b => slotFits d && slotFits a && slotFits b
  | .hstr _ | .hnum _ => true
  | .addstr s _ | .teststr s _ | .addnum s _ | .testnum s _ => slotFits s

end Sys2Proof
end

