-- ==== Sys2Proof/Decode.lean ====
section
/-! DEFINITION. Decoding and encoding (spec/30_encoding.md R73 to R83), the opcode map as the spec
prints it (R80), and the assembler's expansion of a line (R84, R85). -/

namespace Sys2Proof

/-! ## Fields of a command word (R73, R78) -/

def opField (cmd : Word) : BitVec 8 := cmd.extractLsb' 24 8

/-- `s`, or `d` of format T: `CMD[23:20]`. -/
def slotField (cmd : Word) : SlotNo := cmd.extractLsb' 20 4

/-- `a` of format T: `CMD[19:16]`. -/
def aField (cmd : Word) : SlotNo := cmd.extractLsb' 16 4

/-- `b` of format T: `CMD[15:12]`. -/
def bField (cmd : Word) : SlotNo := cmd.extractLsb' 12 4

/-- `imm16`: `CMD[15:0]`. -/
def immField (cmd : Word) : Half := cmd.extractLsb' 0 16

/-- Every reserved bit of the format is zero (R73, R82). -/
def reservedZero (f : Format) (cmd : Word) : Bool :=
  match f with
  | .N => cmd.extractLsb' 0 24 == 0#24
  | .H => cmd.extractLsb' 16 8 == 0#8
  | .S => cmd.extractLsb' 0 20 == 0#20
  | .SI => cmd.extractLsb' 16 4 == 0#4
  | .T => cmd.extractLsb' 0 12 == 0#12

/-! ## The opcode map (R80) -/

/-- The `op` column of R80. -/
def Op.code : Op → BitVec 8
  | .nop => 0x00#8
  | .hinit => 0x01#8
  | .hunit => 0x02#8
  | .hload => 0x03#8
  | .hread => 0x04#8
  | .remix => 0x08#8
  | .index => 0x10#8
  | .config => 0x20#8
  | .add => 0x21#8
  | .test => 0x22#8
  | .rdword => 0x23#8
  | .rdm => 0x24#8
  | .rdk => 0x25#8
  | .union => 0x30#8
  | .intersect => 0x31#8

def Op.all : List Op :=
  [.nop, .hinit, .hunit, .hload, .hread, .remix, .index, .config, .add, .test, .rdword, .rdm, .rdk,
    .union, .intersect]

/-- The operation of an opcode, or none for the 241 unassigned ones (R82). -/
def opOf (code : BitVec 8) : Option Op := Op.all.find? (fun o => o.code == code)

/-- A row of R80: an operation with the `match` and `mask` columns. -/
structure OpcodeRow where
  op : Op
  pattern : Word
  mask : Word
deriving DecidableEq, Repr

/-- The opcode map with its `match` and `mask` columns, as R80 prints them. `decode` below does not
use it: the two are proved to agree. -/
def opcodeMap : List OpcodeRow :=
  [ ⟨.nop,       0x00000000#32, 0xFFFFFFFF#32⟩,
    ⟨.hinit,     0x01000000#32, 0xFFFFFFFF#32⟩,
    ⟨.hunit,     0x02000000#32, 0xFFFF0000#32⟩,
    ⟨.hload,     0x03000000#32, 0xFFFFFFFF#32⟩,
    ⟨.hread,     0x04000000#32, 0xFFFFFFFF#32⟩,
    ⟨.remix,     0x08000000#32, 0xFFFFFFFF#32⟩,
    ⟨.index,     0x10000000#32, 0xFF0F0000#32⟩,
    ⟨.config,    0x20000000#32, 0xFF0F0000#32⟩ ] ++
  [ ⟨.add,       0x21000000#32, 0xFF0FFFFF#32⟩,
    ⟨.test,      0x22000000#32, 0xFF0FFFFF#32⟩,
    ⟨.rdword,    0x23000000#32, 0xFF0FFFFF#32⟩,
    ⟨.rdm,       0x24000000#32, 0xFF0FFFFF#32⟩,
    ⟨.rdk,       0x25000000#32, 0xFF0FFFFF#32⟩,
    ⟨.union,     0x30000000#32, 0xFF000FFF#32⟩,
    ⟨.intersect, 0x31000000#32, 0xFF000FFF#32⟩ ]

/-- R81's test of one row. -/
def OpcodeRow.matchesWord (r : OpcodeRow) (cmd : Word) : Bool := cmd &&& r.mask == r.pattern

/-- R81's loop over the rows. -/
def opByMask (cmd : Word) : Option Op :=
  (opcodeMap.find? (fun r => r.matchesWord cmd)).map OpcodeRow.op

/-! ## Decoding (R81, R82) -/

/-- Why a command word is illegal (R82). Both raise ILLEGAL_COMMAND. -/
inductive IllegalEncoding where
  /-- The opcode is in no row of R80. -/
  | unassignedOpcode
  /-- The opcode is assigned and a reserved field is not zero. -/
  | reservedField
deriving DecidableEq, Repr

/-- The operands of an operation, taken from the fields of `CMD` and from `DATA` (R74 to R77). -/
def Op.withOperands (o : Op) (cmd data : Word) : Instr :=
  match o with
  | .nop => .nop
  | .hinit => .hinit
  | .hunit => .hunit (immField cmd)
  | .hload => .hload data
  | .hread => .hread
  | .remix => .remix
  | .index => .index (slotField cmd) (immField cmd)
  | .config => .config (slotField cmd) (immField cmd) data
  | .add => .add (slotField cmd)
  | .test => .test (slotField cmd)
  | .rdword => .rdword (slotField cmd) data
  | .rdm => .rdm (slotField cmd)
  | .rdk => .rdk (slotField cmd)
  | .union => .union (slotField cmd) (aField cmd) (bField cmd)
  | .intersect => .intersect (slotField cmd) (aField cmd) (bField cmd)

/-- Decoding of any command. It looks at `CMD` only to choose the instruction, never at `DATA` (R81). -/
def decode (c : Command) : Except IllegalEncoding Instr :=
  match opOf (opField c.word) with
  | none => .error .unassignedOpcode
  | some o =>
    if reservedZero o.format c.word then .ok (o.withOperands c.word c.data)
    else .error .reservedField

/-! ## Encoding (R74 to R77) -/

/-- Format N: `{op, 24'b0}`. -/
def packN (o : Op) : Word := o.code ++ 0#24

/-- Format H: `{op, 8'b0, imm16}`. -/
def packH (o : Op) (imm : Half) : Word := o.code ++ 0#8 ++ imm

/-- Format S: `{op, s, 20'b0}`. -/
def packS (o : Op) (s : SlotNo) : Word := o.code ++ s ++ 0#20

/-- Format SI: `{op, s, 4'b0, imm16}`. -/
def packSI (o : Op) (s : SlotNo) (imm : Half) : Word := o.code ++ s ++ 0#4 ++ imm

/-- Format T: `{op, d, a, b, 12'b0}`. -/
def packT (o : Op) (d a b : SlotNo) : Word := o.code ++ d ++ a ++ b ++ 0#12

/-- The command of an instruction. `DATA` is 0 where the row does not use it (R84). -/
def encode (i : Instr) : Command :=
  match i with
  | .nop => ⟨packN i.op, 0#32⟩
  | .hinit => ⟨packN i.op, 0#32⟩
  | .hunit u => ⟨packH i.op u, 0#32⟩
  | .hload v => ⟨packN i.op, v⟩
  | .hread => ⟨packN i.op, 0#32⟩
  | .remix => ⟨packN i.op, 0#32⟩
  | .index s n => ⟨packSI i.op s n, 0#32⟩
  | .config s k bits => ⟨packSI i.op s k, bits⟩
  | .add s => ⟨packS i.op s, 0#32⟩
  | .test s => ⟨packS i.op s, 0#32⟩
  | .rdword s w => ⟨packS i.op s, w⟩
  | .rdm s => ⟨packS i.op s, 0#32⟩
  | .rdk s => ⟨packS i.op s, 0#32⟩
  | .union d a b => ⟨packT i.op d a b, 0#32⟩
  | .intersect d a b => ⟨packT i.op d a b, 0#32⟩

/-! ## The host's numbering of an instruction's bits -/

/-- The command whose bits are `w`, of which `nbits` are given and the rest are 0. DEDUCED (log
entry 15): the first word is `CMD`, bits 31..0, and the second is `DATA`, bits 63..32. -/
def commandOfBits (nbits w : Nat) : Command :=
  let v := w % 2 ^ nbits
  ⟨BitVec.ofNat 32 v, BitVec.ofNat 32 (v / 2 ^ 32)⟩

/-- What the decoder reads from a row of the opcode table. -/
def decodeTableWord (nbits w : Nat) : Option Instr :=
  match decode (commandOfBits nbits w) with
  | .ok i => some i
  | .error _ => none

/-! ## The assembler (R84, R85) -/

/-- The UTF-16 code units of one character: itself, or two surrogates, high first (R85). -/
def utf16OfChar (c : Char) : List Half :=
  if c.toNat < 0x10000 then [BitVec.ofNat 16 c.toNat]
  else
    let v := c.toNat - 0x10000
    [BitVec.ofNat 16 (0xD800 + v / 0x400), BitVec.ofNat 16 (0xDC00 + v % 0x400)]

/-- The code units of a text, in string order (R85, R108). -/
def utf16 (text : List Char) : List Half := text.flatMap utf16OfChar

/-- The canonical string form of an integer: decimal digits, a leading `-` when negative, no leading
zeros (R85, R108). -/
def canonicalInt (n : Int) : List Char :=
  if n < 0 then '-' :: Nat.toDigits 10 n.natAbs else Nat.toDigits 10 n.natAbs

/-- HSTR: HINIT, then HUNIT for each code unit (R85). -/
def hstrInstrs (text : List Char) : List Instr := .hinit :: (utf16 text).map Instr.hunit

/-- The instructions a well-formed line stands for (R84, R85). -/
def AsmLine.instrs : AsmLine → List Instr
  | .nop => [.nop]
  | .hinit => [.hinit]
  | .hunit u => [.hunit (BitVec.ofNat 16 u)]
  | .hload v => [.hload (BitVec.ofNat 32 v)]
  | .hread => [.hread]
  | .remix => [.remix]
  | .index s i => [.index (BitVec.ofNat 4 s) (BitVec.ofNat 16 i)]
  | .config s bits k => [.config (BitVec.ofNat 4 s) (BitVec.ofNat 16 k) (BitVec.ofInt 32 bits)]
  | .add s => [.add (BitVec.ofNat 4 s)]
  | .test s => [.test (BitVec.ofNat 4 s)]
  | .rdword s w => [.rdword (BitVec.ofNat 4 s) (BitVec.ofNat 32 w)]
  | .rdm s => [.rdm (BitVec.ofNat 4 s)]
  | .rdk s => [.rdk (BitVec.ofNat 4 s)]
  | .union d a b => [.union (BitVec.ofNat 4 d) (BitVec.ofNat 4 a) (BitVec.ofNat 4 b)]
  | .intersect d a b => [.intersect (BitVec.ofNat 4 d) (BitVec.ofNat 4 a) (BitVec.ofNat 4 b)]
  | .hstr text => hstrInstrs text
  | .hnum n => hstrInstrs (canonicalInt n)
  | .addstr s text => hstrInstrs text ++ [.add (BitVec.ofNat 4 s)]
  | .teststr s text => hstrInstrs text ++ [.test (BitVec.ofNat 4 s)]
  | .addnum s n => hstrInstrs (canonicalInt n) ++ [.add (BitVec.ofNat 4 s)]
  | .testnum s n => hstrInstrs (canonicalInt n) ++ [.test (BitVec.ofNat 4 s)]

/-- The commands of a line, or none for an assembly error: the assembler emits nothing for it (R84). -/
def assemble (l : AsmLine) : Option (List Command) :=
  if l.wellFormed then some (l.instrs.map encode) else none

end Sys2Proof
end

