-- ==== Sys2Proof/Config.lean ====
section
/-! DEFINITION. What an implementation fixes (spec/00_scope.md R5) and the free values. -/

namespace Sys2Proof

/-- The two sizes an implementation chooses (R5). -/
structure Config where
  /-- `NUM_SLOTS`, the number of filter slots. -/
  numSlots : Nat
  /-- `W_MAX`, the storage words of each slot. -/
  wMax : Nat
deriving DecidableEq, Repr

/-- The legal ranges of R5: 1 to 16 slots, 1 to 2^26 words. -/
abbrev Config.legal (c : Config) : Prop :=
  1 ≤ c.numSlots ∧ c.numSlots ≤ 16 ∧ 1 ≤ c.wMax ∧ c.wMax ≤ 2 ^ 26

/-- R5's recommended sizes. DESIGN CHOICE (log entry 2): the sizes of `State.reset`. -/
def Config.recommended : Config := { numSlots := 4, wMax := 32 }

/-! ## Free values

Each is applied to the whole state, `σ` being the machine's `State`, which this file cannot name: it holds
`ACC`, the slots and the count of accepted commands, so that the value may differ by command, by operands
and from one acceptance to the next. -/

/-- FREE VALUE (R5, R247: "an implementation may take different times for different commands and
operands"; log entry 5): the command `c`, accepted in `state`, takes `1 + extraCycles c state` cycles. -/
opaque Config.extraCycles {σ : Type} (c : Command) (state : σ) : Nat

/-- FREE VALUE (R72: `cmd_ready` "may return to 1"; log entry 6): how many cycles after the completion
of the command in progress in `state` `cmd_ready` is still 0. -/
opaque Config.recoveryCycles {σ : Type} (state : σ) : Nat

/-- FREE VALUE (R240, R241; log entry 7): what word `w` of the destination slot holds when a reset
has abandoned the command in progress in `state`. -/
opaque Config.abandonedWord {σ : Type} (state : σ) (w : Nat) : Word

end Sys2Proof
end

