-- ==== Sys2Proof/Machine/Arith.lean ====
section
/-! DEFINITION. The block's pure functions: the FNV-1a fold (spec/40_hash_engine.md), the remix
(spec/41_remix.md), the positions (spec/42_index_generator.md) and the rounding of a bit count
(spec/43_storage.md R151). -/

namespace Sys2Proof.Machine

/-- `FNV_OFFSET` (R101). -/
def fnvOffset : Word := 0x811C9DC5#32

/-- The FNV multiply, in R100's shift-and-add form. -/
def fnvMul (a : Word) : Word :=
  a + (a <<< 1) + (a <<< 4) + (a <<< 7) + (a <<< 8) + (a <<< 24)

/-- One step of the fold: the code unit is XORed whole into bits 15:0, then multiplied (R102, R104). -/
def fnvStep (acc : Word) (unit : Half) : Word := fnvMul (acc ^^^ unit.setWidth 32)

/-- `hash32` of a key (R102). -/
def hash32 (key : List Half) : Word := key.foldl fnvStep fnvOffset

/-- The avalanche mix, five steps in R120's order; both right shifts are logical. -/
def mix (x₀ : Word) : Word :=
  let x₁ := x₀ + (x₀ <<< 13)
  let x₂ := x₁ ^^^ (x₁ >>> 7)
  let x₃ := x₂ + (x₂ <<< 3)
  let x₄ := x₃ ^^^ (x₃ >>> 17)
  x₄ + (x₄ <<< 5)

/-- The second hash (R121). -/
def remix (a : Word) : Word := mix (fnvMul a)

/-- Position number `i`: the exact unsigned sum, reduced once (R130). -/
def position (a b : Word) (m i : Nat) : Nat := (a.toNat + b.toNat * i) % m

/-- The `k` positions of the key hashed to `a`, in order and with repeats (R130, R133). -/
def indices (a : Word) (m k : Nat) : List Nat := (List.range k).map (position a (remix a) m)

/-- `ceil(bits / 32) * 32` (R151). -/
def roundUp32 (bits : Nat) : Nat := (bits + 31) / 32 * 32

end Sys2Proof.Machine
end

