-- ==== Sys2Proof/Machine/State.lean ====
section
/-! DEFINITION. The state of the block (spec/10_state.md R20, spec/30_encoding.md R71, R72), the
reasons a step can stop, and the state after reset (spec/70_reset_and_hazards.md R242). -/

namespace Sys2Proof.Machine

/-- The storage words of one slot, sparse: (word index, word) pairs, the indexes strictly rising and
no word equal to what an unlisted one reads as. DEDUCED (log entry 4): the unit is the 32-bit word,
since R52 says that no access is narrower and that no byte order exists. -/
abbrev Memory := List (Nat × Word)

/-- What a storage word that is not listed reads as. DESIGN CHOICE (log entry 3): R241 leaves storage
at reset unspecified, and no command can observe it. -/
def Memory.unlisted : Word := 0#32

/-- The canonical form. -/
def Memory.wf : Memory → Bool
  | [] => true
  | (w, v) :: rest => v != Memory.unlisted && rest.all (fun c => w < c.1) && Memory.wf rest

/-- One filter slot (R24, R25, R26). -/
structure Slot where
  /-- `M[s]`, the bit count; 0 when the slot holds no filter. -/
  m : Word
  /-- `K[s]`, the hash-function count. -/
  k : Half
  /-- The slot's storage words. -/
  words : Memory
deriving DecidableEq, Repr

/-- A slot after reset: not configured (R242). -/
def Slot.empty : Slot := { m := 0#32, k := 0#16, words := [] }

/-- What the command port is doing (R72). -/
inductive Phase where
  /-- `cmd_ready` is 1 when `rst` is 0. -/
  | idle
  /-- The accepted command runs; it completes at the edge that finds `left` at 0. -/
  | executing (c : Command) (left : Nat)
  /-- The command has completed and `cmd_ready` is still 0 for `left + 1` edges (log entry 6). -/
  | recovering (left : Nat)
deriving DecidableEq, Repr

/-- The command port's own state (R71, R72, R246). -/
structure Port where
  phase : Phase
  /-- The `done` output: 1 in the cycle that follows a completing edge. -/
  done : Bool
  /-- The command offered at the last edge and not accepted, which the host must hold (R72). -/
  offered : Option Command
  /-- The MODEL's own counter of accepted commands: with it in the state that the free values are applied
  to, each acceptance has values of its own. -/
  accepted : Nat
deriving DecidableEq, Repr

/-- The port after reset (R240, R242; `offered` and `accepted`: log entries 9 and 5). -/
def Port.reset : Port := { phase := .idle, done := false, offered := none, accepted := 0 }

/-- What the host does next, for `step`: it issues a command (R29, R248) or resets the block (R240). -/
inductive HostEvent where
  | command (c : Command)
  | reset
deriving DecidableEq, Repr

/-- The error codes of `STATUS.ERR` (R211). Codes 8 to 15 do not exist. -/
inductive ErrorCode where
  | none
  | invalidArgument
  | incompatibleFilter
  | illegalCommand
  | badSlot
  | notConfigured
  | capacity
  | indexRange
deriving DecidableEq, Repr

/-- The state of the machine. -/
structure State where
  /-- `ACC` (R21). -/
  acc : Word
  /-- `RESULT` (R22). -/
  result : Word
  /-- `STATUS` (R23); its fields are in Machine/Flags.lean. -/
  status : Word
  /-- The filter slots; their number is `NUM_SLOTS` (R5, R24). -/
  slots : List Slot
  /-- `W_MAX` (R5, R26). -/
  wMax : Nat
  /-- The command port. -/
  port : Port
  /-- What the host still does, in order (R29, R248; log entry 1). -/
  stream : List HostEvent
deriving DecidableEq, Repr

/-- The block has no trap and nothing in it is stuck (R219, spec/93_implementation_defined.md
section 2), so there is no fault: nothing raises one, which is safe. -/
inductive Fault where
deriving DecidableEq, Repr

/-- The reasons the model gives no meaning. -/
inductive Refusal where
  /-- An arm of `exec` without a meaning. Nothing raises it: every instruction has its meaning. Safe. -/
  | notModelled (mnemonic : String)
  /-- `edge`, when the host withdrew or changed a command before its acceptance: "the block's
  behaviour for a command word that changes before acceptance is not defined here" (R246;
  93_implementation_defined.md U5: refuse). Safe: the model stops. -/
  | offerNotHeld
deriving DecidableEq, Repr

/-- What a step or a meaning answers. -/
abbrev Answer := Host.Outcome State Fault Refusal

/-- The sizes of the machine that this is a state of (R5). -/
def State.config (s : State) : Config := { numSlots := s.slots.length, wMax := s.wMax }

/-- The state after reset of a block with the sizes `c` (R242). -/
def State.resetOf (c : Config) : State :=
  { acc := fnvOffset
    result := 0#32
    status := 0#32
    slots := List.replicate c.numSlots Slot.empty
    wMax := c.wMax
    port := Port.reset
    stream := [] }

/-- The state after reset (R242), of a block with R5's recommended sizes (DESIGN CHOICE, log entry 2). -/
def State.reset : State := State.resetOf Config.recommended

end Sys2Proof.Machine
end

