-- ==== Sys2Proof/Machine/Flags.lean ====
section
/-! DEFINITION. The fields of STATUS (spec/10_state.md R23) and the error codes
(spec/60_exceptions.md R211). -/

namespace Sys2Proof.Machine

/-- The number of an error code (R211). -/
def ErrorCode.code : ErrorCode → BitVec 4
  | .none => 0#4
  | .invalidArgument => 1#4
  | .incompatibleFilter => 2#4
  | .illegalCommand => 3#4
  | .badSlot => 4#4
  | .notConfigured => 5#4
  | .capacity => 6#4
  | .indexRange => 7#4

/-- STATUS from its fields: ERR in 3:0, T in 4, STICKY in 8, every reserved bit hard-wired 0 (R23). -/
def packStatus (err : BitVec 4) (t sticky : Bool) : Word :=
  0#23 ++ BitVec.ofBool sticky ++ 0#3 ++ BitVec.ofBool t ++ err

/-- `STATUS.ERR`, bits 3:0. -/
def errOf (status : Word) : BitVec 4 := status.extractLsb' 0 4

/-- `STATUS.T`, bit 4. -/
def tOf (status : Word) : Bool := status.getLsbD 4

/-- `STATUS.STICKY`, bit 8. -/
def stickyOf (status : Word) : Bool := status.getLsbD 8

/-- The reserved bits 7:5 and 31:9 of STATUS. -/
def statusReserved : Word := 0xFFFFFEE0#32

/-- STATUS after a command that raised `e` (R212). -/
def statusRaised (e : ErrorCode) (status : Word) : Word := packStatus e.code (tOf status) true

/-- STATUS after a command that succeeded and does not write T (R214, R215). -/
def statusOk (status : Word) : Word :=
  packStatus ErrorCode.none.code (tOf status) (stickyOf status)

/-- STATUS after a TEST that succeeded with the outcome `t` (R154). -/
def statusTested (t : Bool) (status : Word) : Word :=
  packStatus ErrorCode.none.code t (stickyOf status)

end Sys2Proof.Machine
end

