-- ==== Sys2Proof/Machine/Operands.lean ====
section
/-! DEFINITION. Operand assembly (spec/30_encoding.md R79). No field is sign-extended or scaled; the
only signed operand is CONFIG's bit count. -/

namespace Sys2Proof.Machine

/-- A slot field as a number. -/
def slotNumber (s : SlotNo) : Nat := s.toNat

/-- INDEX: `i = uint(imm16)`. -/
def indexNumber (imm : Half) : Nat := imm.toNat

/-- CONFIG: `bits = sint32(DATA)`. -/
def requestedBits (data : Word) : Int := data.toInt

/-- RDWORD: `w = uint(DATA)`. -/
def wordIndex (data : Word) : Nat := data.toNat

end Sys2Proof.Machine
end

