-- ==== Sys2Proof/Machine/Ops.lean ====
section
/-! DEFINITION. The named operations over storage, slots and registers: word and bit access
(spec/20_memory.md R51), ending a command with success or with an error (spec/60_exceptions.md R212,
R214), and reset (spec/70_reset_and_hazards.md R240). -/

namespace Sys2Proof.Machine

/-! ## Storage words of one slot -/

/-- The word at index `w`. -/
def Memory.read : Memory → Nat → Word
  | [], _ => Memory.unlisted
  | (a, v) :: rest, w => if a = w then v else Memory.read rest w

/-- The memory without a word at index `w`. -/
def Memory.erase (mem : Memory) (w : Nat) : Memory := mem.filter (fun c => c.1 != w)

/-- The pair put in its place by rising index. -/
def Memory.insert : Memory → Nat → Word → Memory
  | [], w, v => [(w, v)]
  | (a, x) :: rest, w, v =>
    if w < a then (w, v) :: (a, x) :: rest else (a, x) :: Memory.insert rest w v

/-- The memory with `v` at index `w`, in canonical form: a word that reads as an unlisted one does is
not listed. -/
def Memory.write (mem : Memory) (w : Nat) (v : Word) : Memory :=
  if v = Memory.unlisted then mem.erase w else (mem.erase w).insert w v

/-- The loop `for w in 0 .. n-1: MemWrite(w, f w)` of R150 and R180. -/
def Memory.fill (mem : Memory) (n : Nat) (f : Nat → Word) : Memory :=
  (List.range n).foldl (fun mem w => mem.write w (f w)) mem

/-! ## One slot -/

/-- `M[s]` as a number. -/
def Slot.bitCount (x : Slot) : Nat := x.m.toNat

/-- `K[s]` as a number. -/
def Slot.hashCount (x : Slot) : Nat := x.k.toNat

/-- The number of visible words, `M[s]/32` (R26). -/
def Slot.wordCount (x : Slot) : Nat := x.bitCount / 32

/-- A slot is configured iff `M[s] != 0` (R27). -/
def Slot.configured (x : Slot) : Bool := x.m != 0#32

/-- `MemRead(s, w)` (R11). -/
def Slot.read (x : Slot) (w : Nat) : Word := x.words.read w

/-- `MemWrite(s, w, v)` (R11). -/
def Slot.write (x : Slot) (w : Nat) (v : Word) : Slot := { x with words := x.words.write w v }

/-- `Bit(s, p) = shr32(MemRead(s, p div 32), p mod 32) and 1` (R11, R51). -/
def Slot.bit (x : Slot) (p : Nat) : Bool := ((x.read (p / 32) >>> (p % 32)) &&& 1#32) == 1#32

/-- `SetBit(s, p)` (R51). -/
def Slot.setBit (x : Slot) (p : Nat) : Slot :=
  x.write (p / 32) (x.read (p / 32) ||| (1#32 <<< (p % 32)))

/-- ADD's loop: `SetBit` of each position, in order (R152). -/
def Slot.setBits (x : Slot) (ps : List Nat) : Slot := ps.foldl Slot.setBit x

/-- TEST's outcome: every position is set (R154). -/
def Slot.allSet (x : Slot) (ps : List Nat) : Bool := ps.all x.bit

/-- A filter of `n` words, word `w` holding `f w`, built in the slot's storage; the words beyond it
keep what they held (R150, R180). -/
def Slot.build (x : Slot) (m : Nat) (k : Half) (f : Nat → Word) : Slot :=
  { m := BitVec.ofNat 32 m, k := k, words := x.words.fill (m / 32) f }

/-- The positions of the key hashed to `a` in this slot's filter (R130). -/
def Slot.positions (x : Slot) (a : Word) : List Nat := indices a x.bitCount x.hashCount

/-- The slot after reset: not configured, its storage words not reset (R240). -/
def Slot.unconfigure (x : Slot) : Slot := { x with m := 0#32, k := 0#16 }

/-! ## The machine's slots -/

/-- `NUM_SLOTS` (R5). -/
def State.numSlots (s : State) : Nat := s.slots.length

/-- Whether a slot field raises BAD_SLOT: it is at or above `NUM_SLOTS` (R50). -/
def State.badSlot (s : State) (n : SlotNo) : Bool := s.numSlots ≤ slotNumber n

/-- The slot a field names. A command reads it only after the BAD_SLOT check (log entry 16). -/
def State.slot (s : State) (n : SlotNo) : Slot := s.slots.getD (slotNumber n) Slot.empty

/-- Replaces the slot a field names. -/
def State.setSlot (s : State) (n : SlotNo) (x : Slot) : State :=
  { s with slots := s.slots.set (slotNumber n) x }

/-! ## Ending a command -/

/-- `raise E`, the block's whole error mechanism: `STATUS.ERR <- E`, `STATUS.STICKY <- 1`, nothing else
(R12, R212). There is no saved state, no handler and no return (R219). -/
def State.raise (s : State) (e : ErrorCode) : Answer :=
  .next { s with status := statusRaised e s.status }

/-- `return`: the command succeeded (R13, R214). -/
def State.succeed (s : State) : Answer := .next { s with status := statusOk s.status }

/-- `RESULT <- v; return` (R22). -/
def State.succeedWith (s : State) (v : Word) : Answer :=
  .next { s with result := v, status := statusOk s.status }

/-- TEST's end: `RESULT <- zext_32(t); STATUS.T <- t; return` (R154). -/
def State.succeedTest (s : State) (t : Bool) : Answer :=
  .next { s with result := (BitVec.ofBool t).setWidth 32, status := statusTested t s.status }

/-! ## Reset -/

/-- What every edge with `rst = 1` does to the registers: `ACC`, `RESULT`, `STATUS`, every `M` and `K`;
storage words are not reset (R240, R241). -/
def State.resetRegisters (s : State) : State :=
  { s with
    acc := fnvOffset
    result := 0#32
    status := 0#32
    slots := s.slots.map Slot.unconfigure }

end Sys2Proof.Machine
end

