-- ==== Sys2Proof/Machine/Combinator.lean ====
section
/-! DEFINITION. The word-wise combinator: UNION and INTERSECT (spec/44_combinator.md). -/

namespace Sys2Proof.Machine

/-- The shared body of R180 and R181, with the word operation as an argument. The words of `a` and `b`
are read from the state before anything is written, so `d` may be a source (R183); `K[d] <- K[a]`
(R182). -/
def combine (f : Word → Word → Word) (d a b : SlotNo) (s : State) : Answer :=
  if s.badSlot d || s.badSlot a || s.badSlot b then s.raise .badSlot
  else if !(s.slot a).configured || !(s.slot b).configured then s.raise .notConfigured
  else if (s.slot a).m ≠ (s.slot b).m then s.raise .incompatibleFilter
  else
    State.succeed
      (s.setSlot d
        ((s.slot d).build (s.slot a).bitCount (s.slot a).k
          (fun w => f ((s.slot a).read w) ((s.slot b).read w))))

/-- UNION d, a, b (R180). -/
def execUnion (d a b : SlotNo) (s : State) : Answer := combine (fun x y => x ||| y) d a b s

/-- INTERSECT d, a, b (R181). -/
def execIntersect (d a b : SlotNo) (s : State) : Answer := combine (fun x y => x &&& y) d a b s

end Sys2Proof.Machine
end

