-- ==== Sys2Proof/Machine/Control.lean ====
section
/-! DEFINITION. The control command NOP (spec/45_control.md). -/

namespace Sys2Proof.Machine

/-- NOP (R200). -/
def execNop (s : State) : Answer := s.succeed

end Sys2Proof.Machine
end

