-- ==== Sys2Proof/Machine/Hash.lean ====
section
/-! DEFINITION. The FNV-1a hash engine and the remix unit: HINIT, HUNIT, HLOAD, HREAD
(spec/40_hash_engine.md) and REMIX (spec/41_remix.md). -/

namespace Sys2Proof.Machine

/-- HINIT (R103). -/
def execHinit (s : State) : Answer := State.succeed { s with acc := fnvOffset }

/-- HUNIT u (R104). -/
def execHunit (u : Half) (s : State) : Answer := State.succeed { s with acc := fnvStep s.acc u }

/-- HLOAD (R105). -/
def execHload (v : Word) (s : State) : Answer := State.succeed { s with acc := v }

/-- HREAD (R106). -/
def execHread (s : State) : Answer := s.succeedWith s.acc

/-- REMIX (R122). -/
def execRemix (s : State) : Answer := s.succeedWith (remix s.acc)

end Sys2Proof.Machine
end

