-- ==== Sys2Proof/Machine/Index.lean ====
section
/-! DEFINITION. The index generator's command INDEX (spec/42_index_generator.md). -/

namespace Sys2Proof.Machine

/-- INDEX s, i (R135). -/
def execIndex (n : SlotNo) (imm : Half) (s : State) : Answer :=
  if s.badSlot n then s.raise .badSlot
  else if !(s.slot n).configured then s.raise .notConfigured
  else if (s.slot n).hashCount ≤ indexNumber imm then s.raise .indexRange
  else
    s.succeedWith
      (BitVec.ofNat 32 (position s.acc (remix s.acc) (s.slot n).bitCount (indexNumber imm)))

end Sys2Proof.Machine
end

