-- ==== Sys2Proof/Machine/Storage.lean ====
section
/-! DEFINITION. The bit-packed storage array: CONFIG, ADD, TEST, RDWORD, RDM, RDK
(spec/43_storage.md). -/

namespace Sys2Proof.Machine

/-- CONFIG s, bits, k (R150). -/
def execConfig (n : SlotNo) (k : Half) (data : Word) (s : State) : Answer :=
  if s.badSlot n then s.raise .badSlot
  else if requestedBits data ≤ 0 ∨ k = 0#16 then s.raise .invalidArgument
  else if 32 * s.wMax < roundUp32 (requestedBits data).toNat then s.raise .capacity
  else
    State.succeed
      (s.setSlot n ((s.slot n).build (roundUp32 (requestedBits data).toNat) k (fun _ => 0#32)))

/-- ADD s (R152). -/
def execAdd (n : SlotNo) (s : State) : Answer :=
  if s.badSlot n then s.raise .badSlot
  else if !(s.slot n).configured then s.raise .notConfigured
  else State.succeed (s.setSlot n ((s.slot n).setBits ((s.slot n).positions s.acc)))

/-- TEST s (R154). -/
def execTest (n : SlotNo) (s : State) : Answer :=
  if s.badSlot n then s.raise .badSlot
  else if !(s.slot n).configured then s.raise .notConfigured
  else s.succeedTest ((s.slot n).allSet ((s.slot n).positions s.acc))

/-- RDWORD s, w (R156). -/
def execRdword (n : SlotNo) (data : Word) (s : State) : Answer :=
  if s.badSlot n then s.raise .badSlot
  else if !(s.slot n).configured then s.raise .notConfigured
  else if (s.slot n).wordCount ≤ wordIndex data then s.raise .indexRange
  else s.succeedWith ((s.slot n).read (wordIndex data))

/-- RDM s (R157). -/
def execRdm (n : SlotNo) (s : State) : Answer :=
  if s.badSlot n then s.raise .badSlot else s.succeedWith (s.slot n).m

/-- RDK s (R158). -/
def execRdk (n : SlotNo) (s : State) : Answer :=
  if s.badSlot n then s.raise .badSlot else s.succeedWith ((s.slot n).k.setWidth 32)

end Sys2Proof.Machine
end

