-- ==== Sys2Proof/Machine/Dispatch.lean ====
section
/-! DEFINITION. The meaning of every instruction, one arm for each row of spec/opcode_table.json. -/

namespace Sys2Proof.Machine

def exec (i : Instr) (s : State) : Host.Outcome State Fault Refusal :=
  match i with
  | .nop => Sys2Proof.Machine.execNop s
  | .hinit => Sys2Proof.Machine.execHinit s
  | .hunit u => Sys2Proof.Machine.execHunit u s
  | .hload v => Sys2Proof.Machine.execHload v s
  | .hread => Sys2Proof.Machine.execHread s
  | .remix => Sys2Proof.Machine.execRemix s
  | .index n imm => Sys2Proof.Machine.execIndex n imm s
  | .config n k bits => Sys2Proof.Machine.execConfig n k bits s
  | .add n => Sys2Proof.Machine.execAdd n s
  | .test n => Sys2Proof.Machine.execTest n s
  | .rdword n w => Sys2Proof.Machine.execRdword n w s
  | .rdm n => Sys2Proof.Machine.execRdm n s
  | .rdk n => Sys2Proof.Machine.execRdk n s
  | .union d a b => Sys2Proof.Machine.execUnion d a b s
  | .intersect d a b => Sys2Proof.Machine.execIntersect d a b s

end Sys2Proof.Machine
end

