-- ==== Sys2Proof/Machine/Port.lean ====
section
/-! DEFINITION. The command port: running one command, the order of commands (spec/20_memory.md R56),
the ports and the handshake clock edge by clock edge (spec/30_encoding.md R71, R72), and reset
(spec/70_reset_and_hazards.md R240). -/

namespace Sys2Proof.Machine

/-! ## Whole commands -/

/-- What a command does: an illegal `CMD` raises ILLEGAL_COMMAND (R81, R82), any other is executed. -/
def runCommand (c : Command) (s : State) : Answer :=
  match decode c with
  | .ok i => exec i s
  | .error _ => s.raise .illegalCommand

/-- Commands one after the other, in the order the port accepts them (R56). -/
def runCommands : List Command → State → Answer
  | [], s => .next s
  | c :: cs, s =>
    match runCommand c s with
    | .next t => runCommands cs t
    | .fault r => .fault r
    | .refused r => .refused r

/-- An edge that accepts a command: `CMD` and `DATA` are sampled and `cmd_ready` falls (R72). How long the
command then runs depends on it and on the state it is accepted in, freely (R247; log entry 5). -/
def State.accept (s : State) (c : Command) : State :=
  { s with
    port :=
      { phase := .executing c (Config.extraCycles c s)
        done := false
        offered := none
        accepted := s.port.accepted + 1 } }

/-- The port when a command has completed and the next can be accepted (R72). -/
def State.completed (s : State) : State :=
  { s with port := { s.port with phase := .idle, done := true } }

/-- The command in progress runs to its completion. -/
def finishCommand (c : Command) (s : State) : Answer :=
  match runCommand c s with
  | .next t => .next t.completed
  | .fault r => .fault r
  | .refused r => .refused r

/-- The block when the host offers nothing: it is idle and holds all its state (R221). -/
def State.rest (s : State) : State :=
  { s with port := { s.port with phase := .idle, done := false } }

/-- The storage a reset leaves of a slot `x` that the abandoned command would have made `y`: a word the
command was to change holds a free value, any other is kept. -/
def Slot.abandoned (x y : Slot) (wMax : Nat) (free : Nat → Word) : Slot :=
  { x with
    words := x.words.fill wMax (fun w => if y.read w = x.read w then x.read w else free w) }

/-- What a reset leaves of a command in progress: none of its effects but its storage writes, of which
any part may have happened (R240, R241; log entry 7). -/
def State.abandon (s : State) : State :=
  match s.port.phase with
  | .executing c _ =>
    match runCommand c s with
    | .next t =>
      { s with
        slots :=
          List.zipWith
            (fun x y => Slot.abandoned x y s.wMax (Config.abandonedWord s)) s.slots t.slots }
    | _ => s
  | _ => s

/-- An edge with `rst = 1` (R240), at which the host offers `offer`. -/
def State.resetEdge (s : State) (offer : Option Command) : State :=
  { s.abandon.resetRegisters with
    port := { s.port with phase := .idle, done := false, offered := offer } }

/-- What happens next, in whole commands: a command in progress completes; otherwise the host's next
command runs, or its reset takes effect; with nothing to do the block rests. -/
def nextEvent (s : State) : Answer :=
  match s.port.phase with
  | .executing c _ => finishCommand c s
  | _ =>
    match s.stream with
    | [] => .next s.rest
    | .reset :: es => .next (State.resetEdge { s with stream := es } none)
    | .command c :: es => finishCommand c (State.accept { s with stream := es } c)

/-! ## Clock edges (R71, R72) -/

/-- The input ports. -/
structure PortInputs where
  rst : Bool
  cmdValid : Bool
  cmdWord : Word
  cmdData : Word
deriving DecidableEq, Repr

/-- The output ports. -/
structure PortOutputs where
  cmdReady : Bool
  done : Bool
  status : Word
  result : Word
deriving DecidableEq, Repr

/-- The output ports in a state, under `rst`: STATUS and RESULT are driven continuously (R22, R23, R71);
`cmd_ready` is 0 while a command runs (R72), and it and `done` are 0 while `rst` is 1 (R240; log
entry 19). -/
def outputs (rst : Bool) (s : State) : PortOutputs :=
  { cmdReady := !rst && s.port.phase == .idle
    done := !rst && s.port.done
    status := s.status
    result := s.result }

/-- The command the inputs offer. -/
def PortInputs.offer (i : PortInputs) : Option Command :=
  if i.cmdValid then some ⟨i.cmdWord, i.cmdData⟩ else none

/-- The host held its offer: what was offered at the last edge and not accepted is offered still
(R72, R246). -/
def offerHeld (s : State) (i : PortInputs) : Bool :=
  match s.port.offered with
  | none => true
  | some c => i.offer == some c

/-- The phase that follows the edge at which the command in progress in `s` completes (log entry 6). -/
def phaseAfter (s : State) : Phase :=
  match Config.recoveryCycles s with
  | 0 => .idle
  | n + 1 => .recovering n

/-- A completing edge: STATUS and RESULT take their new values and every state write of the command is
visible; `done` is 1 for the following cycle (R72). -/
def completeEdge (c : Command) (s : State) (offer : Option Command) : Answer :=
  match runCommand c s with
  | .next t =>
    .next
      { t with
        port := { t.port with phase := phaseAfter s, done := true, offered := offer } }
  | .fault r => .fault r
  | .refused r => .refused r

/-- An edge with `rst = 0` at which the host held its offer (R72). -/
def runEdge (i : PortInputs) (s : State) : Answer :=
  match s.port.phase with
  | .idle =>
    match i.offer with
    | some c => .next (s.accept c)
    | none => .next { s with port := { s.port with done := false, offered := none } }
  | .executing c 0 => completeEdge c s i.offer
  | .executing c (n + 1) =>
    .next { s with port := { s.port with phase := .executing c n, done := false, offered := i.offer } }
  | .recovering 0 =>
    .next { s with port := { s.port with phase := .idle, done := false, offered := i.offer } }
  | .recovering (n + 1) =>
    .next { s with port := { s.port with phase := .recovering n, done := false, offered := i.offer } }

/-- One rising edge of `clk`. A host that breaks its hold is outside the spec (R246) and the model
refuses, but a reset is defined whatever the host offers (R240; log entries 8 and 9). -/
def edge (i : PortInputs) (s : State) : Answer :=
  if i.rst then .next (s.resetEdge i.offer)
  else if offerHeld s i then runEdge i s
  else .refused .offerNotHeld

/-- Edges one after the other. -/
def edges : List PortInputs → State → Answer
  | [], s => .next s
  | i :: is, s =>
    match edge i s with
    | .next t => edges is t
    | .fault r => .fault r
    | .refused r => .refused r

/-- Inputs at which the host offers nothing and does not reset. -/
def quietInputs : PortInputs := { rst := false, cmdValid := false, cmdWord := 0#32, cmdData := 0#32 }

/-- Inputs at which the host offers a command. -/
def offerInputs (c : Command) : PortInputs :=
  { rst := false, cmdValid := true, cmdWord := c.word, cmdData := c.data }

end Sys2Proof.Machine
end

