-- ==== Sys2Proof/Machine/Step.lean ====
section
/-! DEFINITION. The step: one whole command of the host, its reset, or rest (spec/20_memory.md R56,
spec/70_reset_and_hazards.md R247, R248). -/

namespace Sys2Proof.Machine

/-- One step (log entry 1). -/
def step (s : State) : Host.Outcome State Fault Refusal := nextEvent s

/-- The state in which the host offers, next, the command whose bits are `w`: no command is in
progress and the command is the head of the stream. -/
def State.withFetchWord (s : State) (nbits w : Nat) : State :=
  { s with
    port := { s.port with phase := .idle }
    stream := .command (commandOfBits nbits w) :: s.stream }

end Sys2Proof.Machine
end

