-- ==== Sys2Proof/Safety.lean ====
section
/-! DEFINITION. The terms that claims use: legal states, what an error and a success leave, and which
storage is visible. -/

namespace Sys2Proof.Machine

/-! ## Legal states -/

/-- R27: a slot is not configured and then `K = 0`, or its `M` is a multiple of 32 from 32 to
`32 * W_MAX` and its `K` is at least 1 (R24, R25). -/
abbrev Slot.legal (wMax : Nat) (x : Slot) : Prop :=
  (x.m = 0#32 ∧ x.k = 0#16) ∨
    (x.m.toNat % 32 = 0 ∧ 32 ≤ x.m.toNat ∧ x.m.toNat ≤ 32 * wMax ∧ 1 ≤ x.k.toNat)

/-- The slot's storage is canonical and lists only words that exist, `0 .. W_MAX-1` (R26). -/
abbrev Slot.storageLegal (wMax : Nat) (x : Slot) : Prop :=
  x.words.wf = true ∧ ∀ c ∈ x.words, c.1 < wMax

/-- STATUS: reserved bits 0, no code above 7, and a code other than 0 only with STICKY set (R23, R211,
R212). -/
abbrev statusLegal (status : Word) : Prop :=
  status &&& statusReserved = 0#32 ∧ (errOf status).toNat ≤ 7 ∧
    (errOf status ≠ 0#4 → stickyOf status = true)

/-- Whether a command runs. -/
def Phase.isExecuting : Phase → Bool
  | .executing _ _ => true
  | .idle | .recovering _ => false

/-- The legal states: legal sizes (R5), legal slots (R27), canonical storage (R26), legal STATUS (R23),
and `done` low while a command runs (R72). -/
abbrev State.Inv (s : State) : Prop :=
  s.config.legal ∧ (∀ x ∈ s.slots, x.legal s.wMax ∧ x.storageLegal s.wMax) ∧
    statusLegal s.status ∧ (s.port.phase.isExecuting = true → s.port.done = false)

/-! ## What a command leaves -/

/-- The parts of the state that no command writes: the sizes, the port and the host's stream. -/
abbrev KeepsMachine (s t : State) : Prop :=
  t.wMax = s.wMax ∧ t.slots.length = s.slots.length ∧ t.port = s.port ∧ t.stream = s.stream

/-- R212: the code is in ERR, STICKY is 1, T and everything else is unchanged (reserved bits read 0). -/
abbrev Raised (e : ErrorCode) (s t : State) : Prop :=
  errOf t.status = e.code ∧ stickyOf t.status = true ∧ tOf t.status = tOf s.status ∧
    t.status &&& statusReserved = 0#32 ∧ t.acc = s.acc ∧ t.result = s.result ∧
    t.slots = s.slots ∧ KeepsMachine s t

/-- R214: ERR is NONE and STICKY is kept (reserved bits read 0); nothing is said of T. -/
abbrev Succeeded (s t : State) : Prop :=
  errOf t.status = 0#4 ∧ stickyOf t.status = stickyOf s.status ∧
    t.status &&& statusReserved = 0#32 ∧ KeepsMachine s t

/-- The instruction raises `e` in `s`, and that is all it does. -/
abbrev Raises (i : Instr) (e : ErrorCode) (s : State) : Prop :=
  ∃ t, exec i s = .next t ∧ Raised e s t

/-- The command raises `e` in `s`, and that is all it does. -/
abbrev CommandRaises (c : Command) (e : ErrorCode) (s : State) : Prop :=
  ∃ t, runCommand c s = .next t ∧ Raised e s t

/-- Every slot but the one a field names is unchanged, its `M`, `K` and every storage word. -/
abbrev KeepsOtherSlots (n : SlotNo) (s t : State) : Prop :=
  ∀ j : Nat, j ≠ n.toNat → t.slots[j]? = s.slots[j]?

/-- The six state items of R20 and the sizes are the same. -/
abbrev SameArchitecture (s t : State) : Prop :=
  t.acc = s.acc ∧ t.result = s.result ∧ t.status = s.status ∧ t.slots = s.slots ∧ t.wMax = s.wMax

/-! ## Visible storage (R26, R241) -/

/-- Two slots with the same `M` and `K`, and the same words `0 .. M/32 - 1`. -/
abbrev Slot.SameVisible (x y : Slot) : Prop :=
  x.m = y.m ∧ x.k = y.k ∧ ∀ w, w < x.wordCount → x.read w = y.read w

/-- Two states that differ at most in storage words that are not visible. -/
abbrev State.SameVisible (s t : State) : Prop :=
  s.acc = t.acc ∧ s.result = t.result ∧ s.status = t.status ∧ s.wMax = t.wMax ∧
    s.port = t.port ∧ s.stream = t.stream ∧
    List.Forall₂ Slot.SameVisible s.slots t.slots

/-! ## Commands and their table entries -/

/-- A command word with this opcode and a nonzero field `CMD[lo+len-1:lo]` raises ILLEGAL_COMMAND and does
nothing else, whatever `DATA` is (R82). -/
abbrev ReservedFieldRaises (opcode : BitVec 8) (lo len : Nat) : Prop :=
  ∀ (w d : Word) (s : State), w.extractLsb' 24 8 = opcode → w.extractLsb' lo len ≠ 0 →
    CommandRaises ⟨w, d⟩ .illegalCommand s

/-- `m` is the least multiple of 32 that is at least `bits` (R151). -/
abbrev LeastMultipleOf32 (bits : Int) (m : Nat) : Prop :=
  m % 32 = 0 ∧ bits ≤ (m : Int) ∧ ∀ m' : Nat, m' % 32 = 0 → bits ≤ (m' : Int) → m ≤ m'

/-- The code units that a sequence of commands folds into the accumulator: HUNIT's, in order (R107). -/
def codeUnits (cs : List Command) : List Half :=
  cs.filterMap fun c =>
    match decode c with
    | .ok (.hunit u) => some u
    | _ => none

/-- The errors that a command can raise once decoded, in priority order (R216's table). -/
def errorsOf : Op → List ErrorCode
  | .nop | .hinit | .hunit | .hload | .hread | .remix => []
  | .index => [.badSlot, .notConfigured, .indexRange]
  | .config => [.badSlot, .invalidArgument, .capacity]
  | .add | .test => [.badSlot, .notConfigured]
  | .rdword => [.badSlot, .notConfigured, .indexRange]
  | .rdm | .rdk => [.badSlot]
  | .union | .intersect => [.badSlot, .notConfigured, .incompatibleFilter]

/-- The priority of R216. -/
def errorPriority : List ErrorCode :=
  [.illegalCommand, .badSlot, .invalidArgument, .capacity, .notConfigured, .incompatibleFilter,
    .indexRange]

/-- The causes of R211's table that concern an instruction, each with whether it applies in `s`. -/
def causes (s : State) : Instr → List (ErrorCode × Bool)
  | .nop | .hinit | .hunit _ | .hload _ | .hread | .remix => []
  | .index n i =>
    [(.badSlot, s.slots.length ≤ n.toNat), (.notConfigured, (s.slot n).m == 0#32),
      (.indexRange, (s.slot n).k.toNat ≤ i.toNat)]
  | .config n k bits =>
    [(.badSlot, s.slots.length ≤ n.toNat), (.invalidArgument, bits.toInt ≤ 0 || k == 0#16),
      (.capacity, 32 * s.wMax < roundUp32 bits.toInt.toNat)]
  | .add n | .test n =>
    [(.badSlot, s.slots.length ≤ n.toNat), (.notConfigured, (s.slot n).m == 0#32)]
  | .rdword n w =>
    [(.badSlot, s.slots.length ≤ n.toNat), (.notConfigured, (s.slot n).m == 0#32),
      (.indexRange, (s.slot n).m.toNat / 32 ≤ w.toNat)]
  | .rdm n | .rdk n => [(.badSlot, s.slots.length ≤ n.toNat)]
  | .union d a b | .intersect d a b =>
    [(.badSlot,
        s.slots.length ≤ d.toNat || s.slots.length ≤ a.toNat || s.slots.length ≤ b.toNat),
      (.notConfigured, (s.slot a).m == 0#32 || (s.slot b).m == 0#32),
      (.incompatibleFilter, (s.slot a).m != (s.slot b).m)]

/-- The first error in R216's order whose cause applies, or NONE. -/
def reportedError (i : Instr) (s : State) : ErrorCode :=
  (errorPriority.find? fun e => (causes s i).contains (e, true)).getD .none

/-- The instruction builds a new filter in the slot that `n` names (R31: it writes its `M` and `K`). -/
def rebuildsSlot (n : SlotNo) : Instr → Bool
  | .config d _ _ => d == n
  | .union d _ _ => d == n
  | .intersect d _ _ => d == n
  | .nop | .hinit | .hunit _ | .hload _ | .hread | .remix | .index _ _ | .add _ | .test _
  | .rdword _ _ | .rdm _ | .rdk _ => false

/-- R31's column ACC: the instruction writes it. -/
def writesAcc : Instr → Bool
  | .hinit | .hunit _ | .hload _ => true
  | .nop | .hread | .remix | .index _ _ | .config _ _ _ | .add _ | .test _ | .rdword _ _ | .rdm _
  | .rdk _ | .union _ _ _ | .intersect _ _ _ => false

/-- R31's column ACC: the instruction reads it. -/
def readsAcc : Instr → Bool
  | .hunit _ | .hread | .remix | .index _ _ | .add _ | .test _ => true
  | .nop | .hinit | .hload _ | .config _ _ _ | .rdword _ _ | .rdm _ | .rdk _ | .union _ _ _
  | .intersect _ _ _ => false

/-- R31's column RESULT. -/
def writesResult : Instr → Bool
  | .hread | .remix | .index _ _ | .test _ | .rdword _ _ | .rdm _ | .rdk _ => true
  | .nop | .hinit | .hunit _ | .hload _ | .config _ _ _ | .add _ | .union _ _ _
  | .intersect _ _ _ => false

/-- R31's column STATUS.T. -/
def writesT : Instr → Bool
  | .test _ => true
  | .nop | .hinit | .hunit _ | .hload _ | .hread | .remix | .index _ _ | .config _ _ _ | .add _
  | .rdword _ _ | .rdm _ | .rdk _ | .union _ _ _ | .intersect _ _ _ => false

/-! ## The host's side of the handshake -/

/-- Inputs at consecutive edges that hold each offer until it is accepted, with no acceptance between:
`pending` is what was offered before and not accepted (R72). -/
def HoldsOffers : Option Command → List PortInputs → Prop
  | _, [] => True
  | none, i :: is => HoldsOffers i.offer is
  | some c, i :: is => i.offer = some c ∧ HoldsOffers (some c) is

end Sys2Proof.Machine
end

