-- ==== Sys2Proof/Certificates/Slice0/Obligations.lean ====
section
/-! DEFINITION. The statements about the model. Each docstring names the rules of spec/ it formalises. -/

open Sys2Proof Sys2Proof.Machine

/-! ## Encoding and decoding -/

/-- Decoding an encoded instruction gives it back, for every instruction and every operand value
(30_encoding.md R74 to R81). -/
def Obligations.DecodeEncodeRoundTrip : Prop := ∀ i : Instr, decode (encode i) = .ok i

/-- R81: the decoder chooses the operation of the one row of R80 whose mask and match fit `CMD`, and no
row otherwise, whatever `DATA` is; a row fits exactly when `CMD` has its opcode and every reserved field
of its format is zero; at most one row fits; and no row fitting raises ILLEGAL_COMMAND in every state,
before any other check. -/
def Obligations.DecodeAgreesWithOpcodeMap : Prop :=
  (∀ c : Command,
    (match decode c with
      | .ok i => some i.op
      | .error _ => none) = opByMask c.word) ∧
  (∀ r ∈ opcodeMap, ∀ w : Word, r.matchesWord w = true ↔
    w.extractLsb' 24 8 = r.op.code ∧ reservedZero r.op.format w = true) ∧
  (∀ r ∈ opcodeMap, ∀ r' ∈ opcodeMap, ∀ w : Word,
    r.matchesWord w = true → r'.matchesWord w = true → r = r') ∧
  (∀ (w d : Word) (s : State), (∀ r ∈ opcodeMap, r.matchesWord w = false) →
    CommandRaises ⟨w, d⟩ .illegalCommand s)

/-- Encoding what was decoded gives the same `CMD`, and the same `DATA` where the row uses it: the
decoder drops no bit (30_encoding.md R73 to R80). -/
def Obligations.EncodeReproducesDecodedWord : Prop :=
  ∀ (c : Command) (i : Instr), decode c = .ok i →
    (encode i).word = c.word ∧ (i.op.usesData = true → (encode i).data = c.data)

/-- R82: 241 opcodes are unassigned; a `CMD` with one of them, or with an assigned opcode and a nonzero
reserved field, raises ILLEGAL_COMMAND and changes nothing else; `DATA` is never checked, and a command
that does not use it ignores it. -/
def Obligations.IllegalCommandsAndIgnoredData : Prop :=
  ((List.range 256).filter (fun n => (opOf (BitVec.ofNat 8 n)).isNone)).length = 241 ∧
  (∀ (w d : Word) (s : State), opOf (w.extractLsb' 24 8) = none →
    CommandRaises ⟨w, d⟩ .illegalCommand s) ∧
  ReservedFieldRaises 0x00#8 0 24 ∧ ReservedFieldRaises 0x01#8 0 24 ∧
  ReservedFieldRaises 0x02#8 16 8 ∧ ReservedFieldRaises 0x03#8 0 24 ∧
  ReservedFieldRaises 0x04#8 0 24 ∧ ReservedFieldRaises 0x08#8 0 24 ∧
  ReservedFieldRaises 0x10#8 16 4 ∧ ReservedFieldRaises 0x20#8 16 4 ∧
  ReservedFieldRaises 0x21#8 0 20 ∧ ReservedFieldRaises 0x22#8 0 20 ∧
  ReservedFieldRaises 0x23#8 0 20 ∧ ReservedFieldRaises 0x24#8 0 20 ∧
  ReservedFieldRaises 0x25#8 0 20 ∧ ReservedFieldRaises 0x30#8 0 12 ∧
  ReservedFieldRaises 0x31#8 0 12 ∧
  (∀ (w d d' : Word) (i : Instr), decode ⟨w, d⟩ = .ok i → i.op.usesData = false →
    decode ⟨w, d'⟩ = .ok i)

/-- Words written out from R73 to R80 decode to the instructions they stand for (R84's and
95_test_vectors.md's words). -/
def Obligations.WordsOfTheSpecDecode : Prop :=
  decode ⟨0x00000000#32, 0#32⟩ = .ok .nop ∧
  decode ⟨0x02000042#32, 0#32⟩ = .ok (.hunit 0x42#16) ∧
  decode ⟨0x08000000#32, 0#32⟩ = .ok .remix ∧
  decode ⟨0x10100009#32, 0#32⟩ = .ok (.index 1#4 9#16) ∧
  decode ⟨0x20000005#32, 0x000003E8#32⟩ = .ok (.config 0#4 5#16 1000#32) ∧
  decode ⟨0x30512000#32, 0#32⟩ = .ok (.union 5#4 1#4 2#4) ∧
  decode ⟨0x31301000#32, 0#32⟩ = .ok (.intersect 3#4 0#4 1#4)

/-- A step runs the host's next command: the decoded instruction on the state in which the port has
accepted it, after which the port is ready and `done` is 1; an illegal command raises ILLEGAL_COMMAND
there (30_encoding.md R72, R81; 20_memory.md R56). The model's choices in it: the step's size (log entry 1);
and that the port is ready at once after a command, and that a port still recovering from one accepts the
next at once, where R72 says only that `cmd_ready` may return to 1 (log entry 6). -/
def Obligations.StepRunsTheDecodedCommand : Prop :=
  ∀ (s : State) (c : Command) (es : List HostEvent),
    s.port.phase.isExecuting = false → s.stream = .command c :: es →
    (∀ i t, decode c = .ok i → exec i (State.accept { s with stream := es } c) = .next t →
      step s = .next t.completed) ∧
    (∀ e, decode c = .error e →
      ∃ t, step s = .next t ∧ errOf t.status = 3#4 ∧ stickyOf t.status = true ∧
        tOf t.status = tOf s.status ∧ t.acc = s.acc ∧ t.result = s.result ∧ t.slots = s.slots ∧
        t.wMax = s.wMax ∧ t.stream = es)

/-- R221: with nothing offered the block is idle and holds all its state; 70_reset_and_hazards.md R240:
the host's reset gives the reset values. (That the step rests is log entry 10.) -/
def Obligations.StepRestsOrResets : Prop :=
  (∀ s : State, s.port.phase.isExecuting = false → s.stream = [] →
    ∃ t, step s = .next t ∧ SameArchitecture s t ∧ t.stream = [] ∧ t.port.done = false) ∧
  (∀ (s : State) (es : List HostEvent), s.port.phase.isExecuting = false →
    s.stream = .reset :: es →
    ∃ t, step s = .next t ∧ t.acc = 0x811C9DC5#32 ∧ t.result = 0#32 ∧ t.status = 0#32 ∧
      t.slots = s.slots.map (fun x => { x with m := 0#32, k := 0#16 }) ∧ t.wMax = s.wMax ∧
      t.stream = es)

/-- R84's table: the words and `DATA` of each assembler command whose operands fit, and nothing for one
with a slot, `u`, `i`, `k` or `bits` that does not. (Of HLOAD's `v` and RDWORD's `w` it speaks only where
they fit `DATA`: the rest is log entry 14.) -/
def Obligations.AssembledCommandWords : Prop :=
  assemble .nop = some [⟨0x00000000#32, 0#32⟩] ∧
  assemble .hinit = some [⟨0x01000000#32, 0#32⟩] ∧
  assemble .hread = some [⟨0x04000000#32, 0#32⟩] ∧
  assemble .remix = some [⟨0x08000000#32, 0#32⟩] ∧
  (∀ u : Nat, assemble (.hunit u) =
    if u ≤ 65535 then some [⟨BitVec.ofNat 32 (0x02000000 ||| u), 0#32⟩] else none) ∧
  (∀ v : Nat, v < 2 ^ 32 → assemble (.hload v) = some [⟨0x03000000#32, BitVec.ofNat 32 v⟩]) ∧
  (∀ n i : Nat, assemble (.index n i) =
    if n ≤ 15 ∧ i ≤ 65535 then
      some [⟨BitVec.ofNat 32 (0x10000000 ||| n <<< 20 ||| i), 0#32⟩] else none) ∧
  (∀ (n : Nat) (bits : Int) (k : Nat), assemble (.config n bits k) =
    if n ≤ 15 ∧ (-2 ^ 31 ≤ bits ∧ bits ≤ 2 ^ 31 - 1) ∧ k ≤ 65535 then
      some [⟨BitVec.ofNat 32 (0x20000000 ||| n <<< 20 ||| k), BitVec.ofInt 32 bits⟩] else none) ∧
  (∀ n : Nat, assemble (.add n) =
    if n ≤ 15 then some [⟨BitVec.ofNat 32 (0x21000000 ||| n <<< 20), 0#32⟩] else none) ∧
  (∀ n : Nat, assemble (.test n) =
    if n ≤ 15 then some [⟨BitVec.ofNat 32 (0x22000000 ||| n <<< 20), 0#32⟩] else none) ∧
  (∀ n w : Nat, w < 2 ^ 32 → assemble (.rdword n w) =
    if n ≤ 15 then some [⟨BitVec.ofNat 32 (0x23000000 ||| n <<< 20), BitVec.ofNat 32 w⟩]
    else none) ∧
  (∀ n : Nat, assemble (.rdm n) =
    if n ≤ 15 then some [⟨BitVec.ofNat 32 (0x24000000 ||| n <<< 20), 0#32⟩] else none) ∧
  (∀ n : Nat, assemble (.rdk n) =
    if n ≤ 15 then some [⟨BitVec.ofNat 32 (0x25000000 ||| n <<< 20), 0#32⟩] else none) ∧
  (∀ d a b : Nat, assemble (.union d a b) =
    if d ≤ 15 ∧ a ≤ 15 ∧ b ≤ 15 then
      some [⟨BitVec.ofNat 32 (0x30000000 ||| d <<< 20 ||| a <<< 16 ||| b <<< 12), 0#32⟩]
    else none) ∧
  (∀ d a b : Nat, assemble (.intersect d a b) =
    if d ≤ 15 ∧ a ≤ 15 ∧ b ≤ 15 then
      some [⟨BitVec.ofNat 32 (0x31000000 ||| d <<< 20 ||| a <<< 16 ||| b <<< 12), 0#32⟩]
    else none)

/-- The commands of HSTR leave in ACC the hash of the text's UTF-16 code units, and TESTSTR's then test
it: RESULT is 1 exactly when every position of that hash is set (30_encoding.md R85, 40_hash_engine.md
R107, 43_storage.md R154). -/
def Obligations.AssembledTextIsHashedAndTested : Prop :=
  (∀ (text : List Char) (s : State), ∃ cs t, assemble (.hstr text) = some cs ∧
    runCommands cs s = .next t ∧ t.acc = hash32 (utf16 text) ∧ t.slots = s.slots) ∧
  (∀ (n : Nat) (text : List Char) (s : State), n ≤ 15 → n < s.slots.length →
    (s.slot (BitVec.ofNat 4 n)).m ≠ 0#32 →
    ∃ cs t, assemble (.teststr n text) = some cs ∧ runCommands cs s = .next t ∧
      t.slots = s.slots ∧
      (t.result = 1#32 ↔ ∀ p ∈ (s.slot (BitVec.ofNat 4 n)).positions (hash32 (utf16 text)),
        (s.slot (BitVec.ofNat 4 n)).bit p = true))

/-! ## Control and hash commands -/

/-- R200: NOP. -/
def Obligations.NopChangesOnlyErr : Prop :=
  (∀ w d : Word, decode ⟨w, d⟩ = .ok .nop ↔ w = 0#32) ∧ ReservedFieldRaises 0x00#8 0 24 ∧
  ∀ s : State, ∃ t, exec .nop s = .next t ∧ Succeeded s t ∧ tOf t.status = tOf s.status ∧
    t.acc = s.acc ∧ t.result = s.result ∧ t.slots = s.slots

/-- R100: the shift-and-add form and the multiply by the prime are the same 32 bits. -/
def Obligations.FnvMultiplyIsMultiplyByPrime : Prop :=
  ∀ a : Word,
    fnvMul a = a + a <<< 1 + a <<< 4 + a <<< 7 + a <<< 8 + a <<< 24 ∧
    fnvMul a = a * 16777619#32 ∧ (fnvMul a).toNat = a.toNat * 16777619 % 2 ^ 32

/-- R102: the fold, from the offset basis, one code unit at a time, with no step after the last
multiply. -/
def Obligations.HashFoldsCodeUnits : Prop :=
  hash32 [] = 0x811C9DC5#32 ∧
  ∀ (key : List Half) (u : Half),
    hash32 (key ++ [u]) = fnvMul (hash32 key ^^^ (0#16 ++ u : BitVec 32))

/-- R103: HINIT. -/
def Obligations.HinitStartsAKey : Prop :=
  (∀ w d : Word, decode ⟨w, d⟩ = .ok .hinit ↔ w = 0x01000000#32) ∧
  ReservedFieldRaises 0x01#8 0 24 ∧
  ∀ s : State, ∃ t, exec .hinit s = .next t ∧ t.acc = 0x811C9DC5#32 ∧ Succeeded s t ∧
    tOf t.status = tOf s.status ∧ t.result = s.result ∧ t.slots = s.slots

/-- R104: HUNIT u, for every code unit and every accumulator. -/
def Obligations.HunitFoldsOneCodeUnit : Prop :=
  (∀ (u : Half) (d : Word),
    decode ⟨0x02000000#32 ||| u.setWidth 32, d⟩ = .ok (.hunit u)) ∧
  ReservedFieldRaises 0x02#8 16 8 ∧
  ∀ (u : Half) (s : State), ∃ t, exec (.hunit u) s = .next t ∧
    t.acc.toNat = (s.acc.toNat ^^^ u.toNat) * 16777619 % 2 ^ 32 ∧ Succeeded s t ∧
    tOf t.status = tOf s.status ∧ t.result = s.result ∧ t.slots = s.slots

/-- R105: HLOAD, for every value. -/
def Obligations.HloadSetsTheAccumulator : Prop :=
  (∀ v : Word, decode ⟨0x03000000#32, v⟩ = .ok (.hload v)) ∧ ReservedFieldRaises 0x03#8 0 24 ∧
  ∀ (v : Word) (s : State), ∃ t, exec (.hload v) s = .next t ∧ t.acc = v ∧ Succeeded s t ∧
    tOf t.status = tOf s.status ∧ t.result = s.result ∧ t.slots = s.slots

/-- R106: HREAD. -/
def Obligations.HreadReadsTheHash : Prop :=
  (∀ w d : Word, decode ⟨w, d⟩ = .ok .hread ↔ w = 0x04000000#32) ∧
  ReservedFieldRaises 0x04#8 0 24 ∧
  ∀ s : State, ∃ t, exec .hread s = .next t ∧ t.result = s.acc ∧ t.acc = s.acc ∧ Succeeded s t ∧
    tOf t.status = tOf s.status ∧ t.slots = s.slots

/-- R107: after HINIT and any commands without HINIT and HLOAD, some of them HUNITs and some perhaps
ending in `raise`, ACC is the hash of the HUNITs' code units. -/
def Obligations.StreamedKeyIsHashed : Prop :=
  ∀ (cs : List Command) (s : State),
    (∀ c ∈ cs, decode c ≠ .ok .hinit ∧ ∀ v, decode c ≠ .ok (.hload v)) →
    ∃ t, runCommands (⟨0x01000000#32, 0#32⟩ :: cs) s = .next t ∧ t.acc = hash32 (codeUnits cs)

/-! ## Remix -/

/-- R120: the five steps on exact numbers; both right shifts bring in zeros. -/
def Obligations.MixIsFiveExactSteps : Prop :=
  ∀ x : Word,
    let y₁ := (x.toNat + x.toNat * 2 ^ 13) % 2 ^ 32
    let y₂ := y₁ ^^^ (y₁ / 2 ^ 7)
    let y₃ := (y₂ + y₂ * 2 ^ 3) % 2 ^ 32
    let y₄ := y₃ ^^^ (y₃ / 2 ^ 17)
    (mix x).toNat = (y₄ + y₄ * 2 ^ 5) % 2 ^ 32

/-- R122: REMIX, and that an accumulator of 0 has every position 0. -/
def Obligations.RemixComputesTheSecondHash : Prop :=
  (∀ w d : Word, decode ⟨w, d⟩ = .ok .remix ↔ w = 0x08000000#32) ∧
  ReservedFieldRaises 0x08#8 0 24 ∧
  (∀ s : State, ∃ t, exec .remix s = .next t ∧ t.result = mix (s.acc * 16777619#32) ∧
    t.acc = s.acc ∧ Succeeded s t ∧ tOf t.status = tOf s.status ∧ t.slots = s.slots) ∧
  remix 0#32 = 0#32 ∧ remix 0x80000000#32 = 0xA908D480#32 ∧
  ∀ m k : Nat, indices 0#32 m k = List.replicate k 0

/-! ## Index generator -/

/-- R135: INDEX s, i: each of its errors, and its result. -/
def Obligations.IndexReadsAPosition : Prop :=
  (∀ (n : SlotNo) (i : Half) (d : Word),
    decode ⟨0x10000000#32 ||| n.setWidth 32 <<< 20 ||| i.setWidth 32, d⟩ = .ok (.index n i)) ∧
  ReservedFieldRaises 0x10#8 16 4 ∧
  ∀ (n : SlotNo) (i : Half) (s : State),
    (s.slots.length ≤ n.toNat → Raises (.index n i) .badSlot s) ∧
    (n.toNat < s.slots.length → (s.slot n).m = 0#32 → Raises (.index n i) .notConfigured s) ∧
    (n.toNat < s.slots.length → (s.slot n).m ≠ 0#32 → (s.slot n).k.toNat ≤ i.toNat →
      Raises (.index n i) .indexRange s) ∧
    (n.toNat < s.slots.length → (s.slot n).m ≠ 0#32 → i.toNat < (s.slot n).k.toNat →
      ∃ t, exec (.index n i) s = .next t ∧
        t.result.toNat =
          (s.acc.toNat + (remix s.acc).toNat * i.toNat) % (s.slot n).m.toNat ∧
        Succeeded s t ∧ tOf t.status = tOf s.status ∧ t.acc = s.acc ∧ t.slots = s.slots)

/-- R131, R133, R134: exactly `k` positions in order, each `(a + b*i) mod m` and below `m`; the first `j`
of them are the positions for the count `j`. -/
def Obligations.PositionsAreKInRange : Prop :=
  ∀ (a : Word) (m k : Nat), 0 < m →
    (indices a m k).length = k ∧ (∀ p ∈ indices a m k, p < m) ∧
    (∀ i, i < k → (indices a m k)[i]? = some ((a.toNat + (remix a).toNat * i) % m)) ∧
    ∀ j, j ≤ k → (indices a m k).take j = indices a m j

/-- R132: the iterative form, with one conditional subtraction a step. -/
def Obligations.IterativePositionsAgree : Prop :=
  ∀ (a b : Word) (m : Nat), 0 < m →
    position a b m 0 = a.toNat % m ∧
    ∀ i,
      position a b m (i + 1) = (position a b m i + b.toNat % m) % m ∧
      position a b m i + b.toNat % m < 2 * m ∧
      position a b m (i + 1) =
        if position a b m i + b.toNat % m < m then position a b m i + b.toNat % m
        else position a b m i + b.toNat % m - m

/-- R136: the exact sum is below 2^48, so a 48-bit datapath gives the same position; and the sum of a
step of the iterative form is below 2^32. -/
def Obligations.FortyEightBitsHoldTheSum : Prop :=
  ∀ (a b : Word) (m i : Nat), i ≤ 65534 →
    a.toNat + b.toNat * i < 2 ^ 48 ∧
    (a.setWidth 48 + b.setWidth 48 * BitVec.ofNat 48 i).toNat % m = position a b m i ∧
    (0 < m → m ≤ 2 ^ 31 → position a b m i + b.toNat % m < 2 ^ 32)

/-- When `m` divides 2^32, the sum wrapped to 32 bits gives the same position (91_not_in_source.md N4,
42_index_generator.md R132). -/
def Obligations.WrappedSumAgreesForPowersOfTwo : Prop :=
  ∀ (a b : Word) (m i : Nat), m ∣ 2 ^ 32 →
    (a + b * BitVec.ofNat 32 i).toNat % m = position a b m i

/-! ## Storage array -/

/-- R150, R151: CONFIG: each of its errors, the rounded bit count, the zeroed words, and what it
leaves. -/
def Obligations.ConfigConstructsAFilter : Prop :=
  (∀ (n : SlotNo) (k : Half) (d : Word),
    decode ⟨0x20000000#32 ||| n.setWidth 32 <<< 20 ||| k.setWidth 32, d⟩ = .ok (.config n k d)) ∧
  ReservedFieldRaises 0x20#8 16 4 ∧
  ∀ (n : SlotNo) (k : Half) (d : Word) (s : State),
    (s.slots.length ≤ n.toNat → Raises (.config n k d) .badSlot s) ∧
    (n.toNat < s.slots.length → d.toInt ≤ 0 ∨ k = 0#16 →
      Raises (.config n k d) .invalidArgument s) ∧
    (n.toNat < s.slots.length → 0 < d.toInt → k ≠ 0#16 →
      ∃ m : Nat, LeastMultipleOf32 d.toInt m ∧
        (32 * s.wMax < m → Raises (.config n k d) .capacity s) ∧
        (m ≤ 32 * s.wMax →
          ∃ t, exec (.config n k d) s = .next t ∧ (t.slot n).m.toNat = m ∧ (t.slot n).k = k ∧
            (∀ w, w < m / 32 → (t.slot n).read w = 0#32) ∧
            (∀ w, m / 32 ≤ w → (t.slot n).read w = (s.slot n).read w) ∧
            KeepsOtherSlots n s t ∧ Succeeded s t ∧ tOf t.status = tOf s.status ∧
            t.acc = s.acc ∧ t.result = s.result))

/-- R152: ADD: each of its errors, the bits it sets, and what it leaves. -/
def Obligations.AddSetsTheKeysBits : Prop :=
  (∀ (n : SlotNo) (d : Word),
    decode ⟨0x21000000#32 ||| n.setWidth 32 <<< 20, d⟩ = .ok (.add n)) ∧
  ReservedFieldRaises 0x21#8 0 20 ∧
  ∀ (n : SlotNo) (s : State),
    (s.slots.length ≤ n.toNat → Raises (.add n) .badSlot s) ∧
    (n.toNat < s.slots.length → (s.slot n).m = 0#32 → Raises (.add n) .notConfigured s) ∧
    (n.toNat < s.slots.length → (s.slot n).m ≠ 0#32 →
      ∃ t, exec (.add n) s = .next t ∧
        (∀ p, (t.slot n).bit p = true ↔
          (s.slot n).bit p = true ∨
            ∃ i, i < (s.slot n).k.toNat ∧
              p = (s.acc.toNat + (remix s.acc).toNat * i) % (s.slot n).m.toNat) ∧
        (∀ w, (∀ i, i < (s.slot n).k.toNat →
            w ≠ position s.acc (remix s.acc) (s.slot n).m.toNat i / 32) →
          (t.slot n).read w = (s.slot n).read w) ∧
        (t.slot n).m = (s.slot n).m ∧ (t.slot n).k = (s.slot n).k ∧ KeepsOtherSlots n s t ∧
        Succeeded s t ∧ tOf t.status = tOf s.status ∧ t.acc = s.acc ∧ t.result = s.result)

/-- R153: ADD clears no bit and never changes `M` or `K`; a second ADD of the same key changes no word;
and after any sequence of ADDs a bit is set exactly when it was before or some key of the sequence has
that position, in whatever order they came. -/
def Obligations.AddsAccumulateKeyPatterns : Prop :=
  (∀ (n j : SlotNo) (s t : State), exec (.add n) s = .next t →
    (t.slot j).m = (s.slot j).m ∧ (t.slot j).k = (s.slot j).k ∧
      ∀ p, (s.slot j).bit p = true → (t.slot j).bit p = true) ∧
  (∀ (n j : SlotNo) (s t u : State), exec (.add n) s = .next t → exec (.add n) t = .next u →
    ∀ w, (u.slot j).read w = (t.slot j).read w) ∧
  ∀ (n : SlotNo) (keys : List Word) (s : State), n.toNat < s.slots.length →
    (s.slot n).m ≠ 0#32 →
    ∃ t, runCommands (keys.flatMap fun a => [encode (.hload a), encode (.add n)]) s = .next t ∧
      ∀ p, (t.slot n).bit p = true ↔
        (s.slot n).bit p = true ∨
          ∃ a ∈ keys, p ∈ indices a (s.slot n).m.toNat (s.slot n).k.toNat

/-- R154: TEST: each of its errors, its outcome in RESULT and in T, and that it changes no storage. -/
def Obligations.TestChecksTheKeysBits : Prop :=
  (∀ (n : SlotNo) (d : Word),
    decode ⟨0x22000000#32 ||| n.setWidth 32 <<< 20, d⟩ = .ok (.test n)) ∧
  ReservedFieldRaises 0x22#8 0 20 ∧
  ∀ (n : SlotNo) (s : State),
    (s.slots.length ≤ n.toNat → Raises (.test n) .badSlot s) ∧
    (n.toNat < s.slots.length → (s.slot n).m = 0#32 → Raises (.test n) .notConfigured s) ∧
    (n.toNat < s.slots.length → (s.slot n).m ≠ 0#32 →
      ∃ t, exec (.test n) s = .next t ∧
        (tOf t.status = true ↔
          ∀ i, i < (s.slot n).k.toNat →
            (s.slot n).bit ((s.acc.toNat + (remix s.acc).toNat * i) % (s.slot n).m.toNat) = true) ∧
        t.result = (if tOf t.status then 1#32 else 0#32) ∧
        Succeeded s t ∧ t.acc = s.acc ∧ t.slots = s.slots)

/-- R155: after an ADD that succeeded, and any commands that build no new filter in the slot, TEST of the
same key gives 1. -/
def Obligations.NoFalseNegatives : Prop :=
  ∀ (n : SlotNo) (s t u : State) (cs : List Command),
    exec (.add n) s = .next t → errOf t.status = 0#4 →
    (∀ c ∈ cs, ∀ i, decode c = .ok i → rebuildsSlot n i = false) →
    runCommands cs t = .next u → u.acc = s.acc →
    ∃ v, exec (.test n) u = .next v ∧ v.result = 1#32 ∧ tOf v.status = true ∧
      errOf v.status = 0#4

/-- R156: RDWORD: each of its errors, its result, and that bit `j` of word `w` is position `32*w + j`. -/
def Obligations.RdwordReadsAStorageWord : Prop :=
  (∀ (n : SlotNo) (d : Word),
    decode ⟨0x23000000#32 ||| n.setWidth 32 <<< 20, d⟩ = .ok (.rdword n d)) ∧
  ReservedFieldRaises 0x23#8 0 20 ∧
  ∀ (n : SlotNo) (w : Word) (s : State),
    (s.slots.length ≤ n.toNat → Raises (.rdword n w) .badSlot s) ∧
    (n.toNat < s.slots.length → (s.slot n).m = 0#32 → Raises (.rdword n w) .notConfigured s) ∧
    (n.toNat < s.slots.length → (s.slot n).m ≠ 0#32 → (s.slot n).m.toNat / 32 ≤ w.toNat →
      Raises (.rdword n w) .indexRange s) ∧
    (n.toNat < s.slots.length → (s.slot n).m ≠ 0#32 → w.toNat < (s.slot n).m.toNat / 32 →
      ∃ t, exec (.rdword n w) s = .next t ∧ t.result = (s.slot n).read w.toNat ∧
        (∀ j, j < 32 → t.result.getLsbD j = (s.slot n).bit (32 * w.toNat + j)) ∧
        Succeeded s t ∧ tOf t.status = tOf s.status ∧ t.acc = s.acc ∧ t.slots = s.slots)

/-- R157: RDM, also on a slot that holds no filter. -/
def Obligations.RdmReadsTheBitCount : Prop :=
  (∀ (n : SlotNo) (d : Word),
    decode ⟨0x24000000#32 ||| n.setWidth 32 <<< 20, d⟩ = .ok (.rdm n)) ∧
  ReservedFieldRaises 0x24#8 0 20 ∧
  ∀ (n : SlotNo) (s : State),
    (s.slots.length ≤ n.toNat → Raises (.rdm n) .badSlot s) ∧
    (n.toNat < s.slots.length →
      ∃ t, exec (.rdm n) s = .next t ∧ t.result = (s.slot n).m ∧ Succeeded s t ∧
        tOf t.status = tOf s.status ∧ t.acc = s.acc ∧ t.slots = s.slots)

/-- R158: RDK, also on a slot that holds no filter. -/
def Obligations.RdkReadsTheHashCount : Prop :=
  (∀ (n : SlotNo) (d : Word),
    decode ⟨0x25000000#32 ||| n.setWidth 32 <<< 20, d⟩ = .ok (.rdk n)) ∧
  ReservedFieldRaises 0x25#8 0 20 ∧
  ∀ (n : SlotNo) (s : State),
    (s.slots.length ≤ n.toNat → Raises (.rdk n) .badSlot s) ∧
    (n.toNat < s.slots.length →
      ∃ t, exec (.rdk n) s = .next t ∧ t.result.toNat = (s.slot n).k.toNat ∧ Succeeded s t ∧
        tOf t.status = tOf s.status ∧ t.acc = s.acc ∧ t.slots = s.slots)

/-- R159: whatever command runs, a slot that it does not rebuild keeps `M`, `K` and every set bit, and
unless the command is an ADD to it, it keeps the whole slot. -/
def Obligations.OnlyBuildersClearBits : Prop :=
  ∀ (c : Command) (n : SlotNo) (s t : State), runCommand c s = .next t →
    (∀ i, decode c = .ok i → rebuildsSlot n i = false) →
    (t.slot n).m = (s.slot n).m ∧ (t.slot n).k = (s.slot n).k ∧
    (∀ p, (s.slot n).bit p = true → (t.slot n).bit p = true) ∧
    (decode c ≠ .ok (.add n) → t.slot n = s.slot n)

/-! ## Combinator -/

/-- R180: UNION: each of its errors, and the word-wise OR of the words the sources held before,
whether or not `d` is one of them (R183). -/
def Obligations.UnionIsWordwiseOr : Prop :=
  (∀ (x a b : SlotNo) (d : Word),
    decode ⟨0x30000000#32 ||| x.setWidth 32 <<< 20 ||| a.setWidth 32 <<< 16 |||
      b.setWidth 32 <<< 12, d⟩ = .ok (.union x a b)) ∧
  ReservedFieldRaises 0x30#8 0 12 ∧
  ∀ (d a b : SlotNo) (s : State),
    (s.slots.length ≤ d.toNat ∨ s.slots.length ≤ a.toNat ∨ s.slots.length ≤ b.toNat →
      Raises (.union d a b) .badSlot s) ∧
    (d.toNat < s.slots.length → a.toNat < s.slots.length → b.toNat < s.slots.length →
      ((s.slot a).m = 0#32 ∨ (s.slot b).m = 0#32 → Raises (.union d a b) .notConfigured s) ∧
      ((s.slot a).m ≠ 0#32 → (s.slot b).m ≠ 0#32 → (s.slot a).m ≠ (s.slot b).m →
        Raises (.union d a b) .incompatibleFilter s) ∧
      ((s.slot a).m ≠ 0#32 → (s.slot a).m = (s.slot b).m →
        ∃ t, exec (.union d a b) s = .next t ∧
          (t.slot d).m = (s.slot a).m ∧ (t.slot d).k = (s.slot a).k ∧
          (∀ w, w < (s.slot a).m.toNat / 32 →
            (t.slot d).read w = (s.slot a).read w ||| (s.slot b).read w) ∧
          (∀ w, (s.slot a).m.toNat / 32 ≤ w → (t.slot d).read w = (s.slot d).read w) ∧
          KeepsOtherSlots d s t ∧ Succeeded s t ∧ tOf t.status = tOf s.status ∧
          t.acc = s.acc ∧ t.result = s.result))

/-- R181: INTERSECT: as R180 with AND. -/
def Obligations.IntersectIsWordwiseAnd : Prop :=
  (∀ (x a b : SlotNo) (d : Word),
    decode ⟨0x31000000#32 ||| x.setWidth 32 <<< 20 ||| a.setWidth 32 <<< 16 |||
      b.setWidth 32 <<< 12, d⟩ = .ok (.intersect x a b)) ∧
  ReservedFieldRaises 0x31#8 0 12 ∧
  ∀ (d a b : SlotNo) (s : State),
    (s.slots.length ≤ d.toNat ∨ s.slots.length ≤ a.toNat ∨ s.slots.length ≤ b.toNat →
      Raises (.intersect d a b) .badSlot s) ∧
    (d.toNat < s.slots.length → a.toNat < s.slots.length → b.toNat < s.slots.length →
      ((s.slot a).m = 0#32 ∨ (s.slot b).m = 0#32 →
        Raises (.intersect d a b) .notConfigured s) ∧
      ((s.slot a).m ≠ 0#32 → (s.slot b).m ≠ 0#32 → (s.slot a).m ≠ (s.slot b).m →
        Raises (.intersect d a b) .incompatibleFilter s) ∧
      ((s.slot a).m ≠ 0#32 → (s.slot a).m = (s.slot b).m →
        ∃ t, exec (.intersect d a b) s = .next t ∧
          (t.slot d).m = (s.slot a).m ∧ (t.slot d).k = (s.slot a).k ∧
          (∀ w, w < (s.slot a).m.toNat / 32 →
            (t.slot d).read w = (s.slot a).read w &&& (s.slot b).read w) ∧
          (∀ w, (s.slot a).m.toNat / 32 ≤ w → (t.slot d).read w = (s.slot d).read w) ∧
          KeepsOtherSlots d s t ∧ Succeeded s t ∧ tOf t.status = tOf s.status ∧
          t.acc = s.acc ∧ t.result = s.result))

/-- R182: a UNION of filters with different `k` succeeds with the first source's `k`; a key whose
positions are all set in `b` tests 1 on the result when `K[b] >= K[a]`, and may test 0 when
`K[b] < K[a]`. -/
def Obligations.UnionOfDifferentHashCounts : Prop :=
  (∀ (d a b : SlotNo) (s : State), s.Inv → d.toNat < s.slots.length → a.toNat < s.slots.length →
    b.toNat < s.slots.length → (s.slot a).m ≠ 0#32 → (s.slot a).m = (s.slot b).m →
    ∃ t, exec (.union d a b) s = .next t ∧ errOf t.status = 0#4 ∧
      (t.slot d).k = (s.slot a).k ∧
      ((s.slot a).k.toNat ≤ (s.slot b).k.toNat →
        (s.slot b).allSet ((s.slot b).positions s.acc) = true →
        ∃ u, exec (.test d) t = .next u ∧ u.result = 1#32)) ∧
  ∃ (d a b : SlotNo) (s t u : State), s.Inv ∧ (s.slot a).m = (s.slot b).m ∧
    (s.slot b).k.toNat < (s.slot a).k.toNat ∧
    (s.slot b).allSet ((s.slot b).positions s.acc) = true ∧
    exec (.union d a b) s = .next t ∧ errOf t.status = 0#4 ∧ exec (.test d) t = .next u ∧
    errOf u.status = 0#4 ∧ u.result = 0#32

/-- R183: combining word by word in place, reading each word as it stands at its turn, gives every slot
the same words as reading every source word first. -/
def Obligations.InPlaceCombineAgrees : Prop :=
  ∀ (f : Word → Word → Word) (d a b j : SlotNo) (s : State) (n w : Nat),
    d.toNat < s.slots.length →
    (((List.range n).foldl
        (fun s w => s.setSlot d ((s.slot d).write w (f ((s.slot a).read w) ((s.slot b).read w))))
        s).slot j).read w =
      if j = d ∧ w < n then f ((s.slot a).read w) ((s.slot b).read w) else (s.slot j).read w

/-- R184: for two filters of equal `m` and `k`, a key whose positions are all set in either tests 1 on
their UNION, wherever it was added; and so does one that is added just before. -/
def Obligations.UnionKeepsEveryMember : Prop :=
  ∀ (d a b : SlotNo) (s : State), s.Inv →
    d.toNat < s.slots.length → a.toNat < s.slots.length → b.toNat < s.slots.length →
    (s.slot a).m ≠ 0#32 → (s.slot a).m = (s.slot b).m → (s.slot a).k = (s.slot b).k →
    ((s.slot a).allSet ((s.slot a).positions s.acc) = true ∨
        (s.slot b).allSet ((s.slot b).positions s.acc) = true →
      ∃ t u, exec (.union d a b) s = .next t ∧ exec (.test d) t = .next u ∧ u.result = 1#32 ∧
        tOf u.status = true ∧ errOf u.status = 0#4) ∧
    ∀ (who : SlotNo) (key : Word), who = a ∨ who = b →
      ∃ t, runCommands
          [encode (.hload key), encode (.add who), encode (.union d a b), encode (.test d)] s =
            .next t ∧
        t.result = 1#32 ∧ tOf t.status = true ∧ errOf t.status = 0#4

/-- R185: TEST on an intersection gives the AND of the two sources' bits at the key's positions, so a key
all of whose positions are set in both tests 1. -/
def Obligations.IntersectionTestIsAnd : Prop :=
  ∀ (d a b : SlotNo) (s : State), s.Inv → d.toNat < s.slots.length →
    a.toNat < s.slots.length → b.toNat < s.slots.length → (s.slot a).m ≠ 0#32 →
    (s.slot a).m = (s.slot b).m → (s.slot a).k = (s.slot b).k →
    ∃ t u, exec (.intersect d a b) s = .next t ∧ exec (.test d) t = .next u ∧
      errOf u.status = 0#4 ∧
      (∀ p, p < (s.slot a).m.toNat → (t.slot d).bit p = ((s.slot a).bit p && (s.slot b).bit p)) ∧
      (u.result = 1#32 ↔ ∀ p ∈ (s.slot a).positions s.acc,
        (s.slot a).bit p = true ∧ (s.slot b).bit p = true)

/-- R55: every command but HUNIT, issued twice with no command between, leaves after the second time
exactly the state it left after the first. -/
def Obligations.CommandsAreIdempotent : Prop :=
  ∀ (i : Instr) (s t u : State), (∀ v, i ≠ .hunit v) → s.Inv → exec i s = .next t →
    exec i t = .next u → u = t

/-! ## Errors and status -/

/-- R212: a command after which ERR is not NONE has set STICKY and changed nothing else: not T, ACC,
RESULT, any `M`, `K` or storage word. It has completed: `done` is 1, and no command is in progress that
would keep the next from being accepted. (When `cmd_ready` is 1 again is free, log entry 6, and not said
here.) -/
def Obligations.RaiseChangesOnlyStatus : Prop :=
  ∀ (c : Command) (s t : State), runCommand c s = .next t → errOf t.status ≠ 0#4 →
    (∃ e : ErrorCode, e ≠ .none ∧ Raised e s t) ∧
    ∃ u, finishCommand c s = .next u ∧ SameArchitecture t u ∧ (outputs false u).done = true ∧
      u.port.phase.isExecuting = false

/-- R214, R215: a command after which ERR is NONE has kept STICKY, and has kept T unless it is a TEST. -/
def Obligations.SuccessKeepsStickyAndT : Prop :=
  ∀ (c : Command) (s t : State), runCommand c s = .next t →
    (errOf t.status = 0#4 → stickyOf t.status = stickyOf s.status) ∧
    (tOf t.status ≠ tOf s.status → errOf t.status = 0#4 ∧ ∃ n, decode c = .ok (.test n))

/-- R216: the error reported is the first, in R216's order, whose cause (R211) applies, and each
instruction's possible errors are those of R216's table; every instruction completes. -/
def Obligations.FirstApplicableErrorIsReported : Prop :=
  (∀ (i : Instr) (s : State),
    ∃ t, exec i s = .next t ∧ errOf t.status = (reportedError i s).code) ∧
  (∀ (i : Instr) (s : State), (causes s i).map Prod.fst = errorsOf i.op) ∧
  (∀ (c : Command) (s : State) (e : IllegalEncoding), decode c = .error e →
    CommandRaises c .illegalCommand s)

/-- R213: after any commands from reset, STICKY is 0 exactly when none of them raised. -/
def Obligations.StickyTellsWhetherAnyRaised : Prop :=
  ∀ (cfg : Config) (cs : List Command),
    ∃ t, runCommands cs (State.resetOf cfg) = .next t ∧
      (stickyOf t.status = false ↔
        ∀ (before after : List Command) (c : Command) (u : State), cs = before ++ c :: after →
          runCommands (before ++ [c]) (State.resetOf cfg) = .next u → errOf u.status = 0#4)

/-- R247: every command completes, whatever the command word, the data and the state, and so does every
sequence of commands: nothing faults, and nothing is refused (60_exceptions.md R219). -/
def Obligations.EveryCommandCompletes : Prop :=
  ∀ (cs : List Command) (s : State), ∃ t, runCommands cs s = .next t

/-- R31: which instruction writes which state; RESULT, STATUS, the port and the stream are read by none,
and ACC only by those of R31's column (R210: an error is decided by what the command reads). -/
def Obligations.AccessSummaryHolds : Prop :=
  (∀ (i : Instr) (s t : State), exec i s = .next t →
    KeepsMachine s t ∧ (writesAcc i = false → t.acc = s.acc) ∧
    (writesResult i = false → t.result = s.result) ∧
    (writesT i = false → tOf t.status = tOf s.status) ∧
    (∀ n : SlotNo, rebuildsSlot n i = false → i ≠ .add n → t.slot n = s.slot n)) ∧
  (∀ (i : Instr) (s t s' : State), exec i s = .next t → s'.slots = s.slots → s'.wMax = s.wMax →
    (readsAcc i = true → s'.acc = s.acc) →
    ∃ t', exec i s' = .next t' ∧ t'.slots = t.slots ∧ errOf t'.status = errOf t.status ∧
      (s'.acc = s.acc ∨ writesAcc i = true → t'.acc = t.acc) ∧
      (s'.result = s.result ∨ (writesResult i = true ∧ errOf t.status = 0#4) →
        t'.result = t.result) ∧
      (tOf s'.status = tOf s.status ∨ (writesT i = true ∧ errOf t.status = 0#4) →
        tOf t'.status = tOf t.status))

/-! ## Legal states and reset -/

/-- R27 and R23: from every legal state, a step answers a legal state: legal sizes, every slot either
not configured with `K = 0` or with a legal `M` and `K`, canonical storage within `W_MAX` words, legal
STATUS. -/
def Obligations.StepKeepsLegalStates : Prop :=
  ∀ s t : State, s.Inv → step s = .next t → t.Inv

/-- As above for one clock edge, with any inputs, a reset in the middle of a command among them (what it
leaves of the abandoned command's storage is log entry 7). -/
def Obligations.EdgeKeepsLegalStates : Prop :=
  ∀ (i : PortInputs) (s t : State), s.Inv → edge i s = .next t → t.Inv

/-- The state after reset is legal for every legal choice of the sizes (R27). -/
def Obligations.ResetIsLegal : Prop :=
  (∀ cfg : Config, cfg.legal → (State.resetOf cfg).Inv) ∧ State.reset.Inv

/-- R242: the values after reset. -/
def Obligations.ResetValues : Prop :=
  ∀ cfg : Config,
    (State.resetOf cfg).acc = 0x811C9DC5#32 ∧ (State.resetOf cfg).result = 0x00000000#32 ∧
    (State.resetOf cfg).status = 0x00000000#32 ∧
    (State.resetOf cfg).slots.length = cfg.numSlots ∧ (State.resetOf cfg).wMax = cfg.wMax ∧
    (∀ x ∈ (State.resetOf cfg).slots, x.m = 0#32 ∧ x.k = 0#16) ∧
    (outputs false (State.resetOf cfg)).cmdReady = true

/-- R240: an edge with `rst = 1`, from any state and with any offer: no command is accepted, `cmd_ready`
and `done` are 0, the registers and every `M` and `K` take their reset values, a command in progress is
gone, storage words that it was not to change are kept (log entry 7), and the next edge with `rst = 0` can
accept a command. (`done` in that very cycle: log entry 19.) -/
def Obligations.ResetEdgeFromAnyState : Prop :=
  ∀ (i : PortInputs) (s : State), i.rst = true →
    (outputs i.rst s).cmdReady = false ∧ (outputs i.rst s).done = false ∧
    ∃ t, edge i s = .next t ∧ t.acc = 0x811C9DC5#32 ∧ t.result = 0#32 ∧ t.status = 0#32 ∧
      (∀ x ∈ t.slots, x.m = 0#32 ∧ x.k = 0#16) ∧ t.slots.length = s.slots.length ∧
      t.wMax = s.wMax ∧ t.stream = s.stream ∧ t.port.done = false ∧ t.port.phase = .idle ∧
      (s.port.phase.isExecuting = false →
        t.slots = s.slots.map (fun x => { x with m := 0#32, k := 0#16 })) ∧
      (∀ c n u, s.port.phase = .executing c n → runCommand c s = .next u →
        ∀ j w, (u.slot j).read w = (s.slot j).read w → (t.slot j).read w = (s.slot j).read w) ∧
      (outputs false t).cmdReady = true

/-- R26, 92_eei_decisions.md D16: a command run in two legal states that differ only in storage words
that are not visible leaves two such states: it never lets a word at or above `M[s]/32` be seen. -/
def Obligations.InvisibleWordsNeverMatter : Prop :=
  ∀ (c : Command) (s s' : State), s.Inv → s'.Inv → s.SameVisible s' →
    ∃ t t', runCommand c s = .next t ∧ runCommand c s' = .next t' ∧ t.SameVisible t'

/-- R241: reset two blocks of the same sizes, whatever their states and storage were, and run the same
commands: STATUS, RESULT, ACC, every `M`, `K` and visible word are the same. -/
def Obligations.StorageBeforeResetIsUnobservable : Prop :=
  ∀ (i : PortInputs) (s s' t t' : State) (cs : List Command), s.Inv → s'.Inv → i.rst = true →
    s.slots.length = s'.slots.length → s.wMax = s'.wMax →
    edge i s = .next t → edge i s' = .next t' →
    ∃ u u', runCommands cs t = .next u ∧ runCommands cs t' = .next u' ∧ u.acc = u'.acc ∧
      u.result = u'.result ∧ u.status = u'.status ∧
      List.Forall₂ Slot.SameVisible u.slots u'.slots

/-! ## The command port, clock edge by clock edge -/

/-- R72: a command offered to an idle port is accepted at that edge, and its effect is exactly that of
the whole command; until it completes, `cmd_ready` and `done` are 0 and no register changes; then all its
writes are visible and `done` is 1. It holds whatever the number of cycles is and whatever the host
offers meanwhile, as long as it holds its offers. (The free number of cycles is log entry 5; that effects
appear at the completing edge is log entry 11.) -/
def Obligations.PortRunsEachCommandToCompletion : Prop :=
  ∀ (s : State) (c : Command), s.port.phase = .idle → offerHeld s (offerInputs c) = true →
    (outputs false s).cmdReady = true ∧
    ∃ latency : Nat, 1 ≤ latency ∧
      ∀ is : List PortInputs, is.length = latency → (∀ i ∈ is, i.rst = false) →
        HoldsOffers none is →
        (∀ j, j < latency →
          ∃ t, edges (offerInputs c :: is.take j) s = .next t ∧ SameArchitecture s t ∧
            (outputs false t).cmdReady = false ∧ (outputs false t).done = false) ∧
        ∃ t u, runCommand c s = .next t ∧ edges (offerInputs c :: is) s = .next u ∧
          SameArchitecture t u ∧ (outputs false u).done = true ∧ u.stream = s.stream

/-- R72: a command begins to run only at an edge with `cmd_valid = 1`, `cmd_ready = 1` and `rst = 0`, at
which `cmd_word` and `cmd_data` are sampled; otherwise the one in progress runs on. -/
def Obligations.AcceptanceNeedsValidAndReady : Prop :=
  ∀ (i : PortInputs) (s t : State) (c : Command) (n : Nat), edge i s = .next t →
    t.port.phase = .executing c n →
    (i.rst = false ∧ s.port.phase = .executing c (n + 1)) ∨
      (i.rst = false ∧ i.cmdValid = true ∧ (outputs i.rst s).cmdReady = true ∧
        c = ⟨i.cmdWord, i.cmdData⟩)

/-- R72, R30: `done` is 1 in the cycle after an edge exactly when a command completes at that edge, and
no register, slot or storage word changes at an edge without `rst` at which none completes. (That no slot
or storage word shows the progress of a running command is the model's choice: log entry 11.) -/
def Obligations.StateChangesOnlyAtCompletion : Prop :=
  ∀ (i : PortInputs) (s t : State), edge i s = .next t →
    ((outputs false t).done = true ↔ i.rst = false ∧ ∃ c, s.port.phase = .executing c 0) ∧
    (i.rst = false → (∀ c, s.port.phase ≠ .executing c 0) → SameArchitecture s t)

/-- R246: the model stops exactly when the host, without `rst`, no longer offers the command it offered
and that was not accepted; it never faults. (The refusal is the model's treatment: log entry 8.) -/
def Obligations.OnlyABrokenHoldIsRefused : Prop :=
  ∀ (i : PortInputs) (s : State),
    (∀ r, edge i s = .refused r ↔
      r = .offerNotHeld ∧ i.rst = false ∧ ∃ c, s.port.offered = some c ∧ i.offer ≠ some c) ∧
    ∀ r, edge i s ≠ .fault r
end

