-- ==== Sys2Proof/Laws/Decode.lean ====
section
/-! SUPPORT. The packed command words: as the sums of fields that R84 prints, and their fields. -/

namespace Sys2Proof

/-- An assigned opcode is its operation's. -/
theorem opOf_code (o : Op) : opOf o.code = some o := by cases o <;> decide

/-- The operation found has the code looked for. -/
theorem code_of_opOf {c : BitVec 8} {o : Op} (h : opOf c = some o) : o.code = c := by
  have := List.find?_some h
  simpa using this

/-! ## Bit by bit -/

theorem and_eq_iff_bits (w mask pattern : Word) :
    w &&& mask = pattern ↔
      ∀ i : Fin 32, (w.getLsbD i && mask.getLsbD i) = pattern.getLsbD i := by
  constructor
  · rintro rfl i; simp
  · intro h
    apply BitVec.eq_of_getLsbD_eq
    intro i hi
    rw [BitVec.getLsbD_and]
    exact h ⟨i, hi⟩

theorem extractLsb'_eq_iff_bits {n : Nat} (w : Word) (lo : Nat) (c : BitVec n) :
    w.extractLsb' lo n = c ↔ ∀ i : Fin n, w.getLsbD (lo + i) = c.getLsbD i := by
  constructor
  · rintro rfl i; simp
  · intro h
    apply BitVec.eq_of_getLsbD_eq
    intro i hi
    rw [BitVec.getLsbD_extractLsb']
    simp only [hi, decide_true, Bool.true_and]
    exact h ⟨i, hi⟩

/-! ## As sums of fields -/

theorem packN_eq (o : Op) : packN o = o.code.setWidth 32 <<< 24 := by cases o <;> decide

theorem packH_eq (o : Op) (imm : Half) :
    packH o imm = o.code.setWidth 32 <<< 24 ||| imm.setWidth 32 := by
  apply BitVec.eq_of_getLsbD_eq
  intro i hi
  simp only [packH, BitVec.getLsbD_append, BitVec.getLsbD_or, BitVec.getLsbD_shiftLeft,
    BitVec.getLsbD_setWidth]
  interval_cases i <;> simp

theorem packS_eq (o : Op) (s : SlotNo) :
    packS o s = o.code.setWidth 32 <<< 24 ||| s.setWidth 32 <<< 20 := by
  apply BitVec.eq_of_getLsbD_eq
  intro i hi
  simp only [packS, BitVec.getLsbD_append, BitVec.getLsbD_or, BitVec.getLsbD_shiftLeft,
    BitVec.getLsbD_setWidth]
  interval_cases i <;> simp

theorem packSI_eq (o : Op) (s : SlotNo) (imm : Half) :
    packSI o s imm = o.code.setWidth 32 <<< 24 ||| s.setWidth 32 <<< 20 ||| imm.setWidth 32 := by
  apply BitVec.eq_of_getLsbD_eq
  intro i hi
  simp only [packSI, BitVec.getLsbD_append, BitVec.getLsbD_or, BitVec.getLsbD_shiftLeft,
    BitVec.getLsbD_setWidth]
  interval_cases i <;> simp

theorem packT_eq (o : Op) (d a b : SlotNo) :
    packT o d a b = 
      o.code.setWidth 32 <<< 24 ||| d.setWidth 32 <<< 20 ||| a.setWidth 32 <<< 16 |||
        b.setWidth 32 <<< 12 := by
  apply BitVec.eq_of_getLsbD_eq
  intro i hi
  simp only [packT, BitVec.getLsbD_append, BitVec.getLsbD_or, BitVec.getLsbD_shiftLeft,
    BitVec.getLsbD_setWidth]
  interval_cases i <;> simp

/-! ## Their fields -/

@[simp] theorem opField_packN (o : Op) : opField (packN o) = o.code := by cases o <;> decide

@[simp] theorem opField_packH (o : Op) (imm : Half) : opField (packH o imm) = o.code := by
  apply BitVec.eq_of_getLsbD_eq
  intro i hi
  simp only [opField, packH, BitVec.getLsbD_append, BitVec.getLsbD_extractLsb']
  interval_cases i <;> simp

@[simp] theorem immField_packH (o : Op) (imm : Half) : immField (packH o imm) = imm := by
  apply BitVec.eq_of_getLsbD_eq
  intro i hi
  simp only [immField, packH, BitVec.getLsbD_append, BitVec.getLsbD_extractLsb']
  interval_cases i <;> simp

@[simp] theorem opField_packS (o : Op) (s : SlotNo) : opField (packS o s) = o.code := by
  apply BitVec.eq_of_getLsbD_eq
  intro i hi
  simp only [opField, packS, BitVec.getLsbD_append, BitVec.getLsbD_extractLsb']
  interval_cases i <;> simp

@[simp] theorem slotField_packS (o : Op) (s : SlotNo) : slotField (packS o s) = s := by
  apply BitVec.eq_of_getLsbD_eq
  intro i hi
  simp only [slotField, packS, BitVec.getLsbD_append, BitVec.getLsbD_extractLsb']
  interval_cases i <;> simp

@[simp] theorem opField_packSI (o : Op) (s : SlotNo) (imm : Half) : opField (packSI o s imm) = o.code := by
  apply BitVec.eq_of_getLsbD_eq
  intro i hi
  simp only [opField, packSI, BitVec.getLsbD_append, BitVec.getLsbD_extractLsb']
  interval_cases i <;> simp

@[simp] theorem slotField_packSI (o : Op) (s : SlotNo) (imm : Half) : slotField (packSI o s imm) = s := by
  apply BitVec.eq_of_getLsbD_eq
  intro i hi
  simp only [slotField, packSI, BitVec.getLsbD_append, BitVec.getLsbD_extractLsb']
  interval_cases i <;> simp

@[simp] theorem immField_packSI (o : Op) (s : SlotNo) (imm : Half) : immField (packSI o s imm) = imm := by
  apply BitVec.eq_of_getLsbD_eq
  intro i hi
  simp only [immField, packSI, BitVec.getLsbD_append, BitVec.getLsbD_extractLsb']
  interval_cases i <;> simp

@[simp] theorem opField_packT (o : Op) (d a b : SlotNo) : opField (packT o d a b) = o.code := by
  apply BitVec.eq_of_getLsbD_eq
  intro i hi
  simp only [opField, packT, BitVec.getLsbD_append, BitVec.getLsbD_extractLsb']
  interval_cases i <;> simp

@[simp] theorem slotField_packT (o : Op) (d a b : SlotNo) : slotField (packT o d a b) = d := by
  apply BitVec.eq_of_getLsbD_eq
  intro i hi
  simp only [slotField, packT, BitVec.getLsbD_append, BitVec.getLsbD_extractLsb']
  interval_cases i <;> simp

@[simp] theorem aField_packT (o : Op) (d a b : SlotNo) : aField (packT o d a b) = a := by
  apply BitVec.eq_of_getLsbD_eq
  intro i hi
  simp only [aField, packT, BitVec.getLsbD_append, BitVec.getLsbD_extractLsb']
  interval_cases i <;> simp

@[simp] theorem bField_packT (o : Op) (d a b : SlotNo) : bField (packT o d a b) = b := by
  apply BitVec.eq_of_getLsbD_eq
  intro i hi
  simp only [bField, packT, BitVec.getLsbD_append, BitVec.getLsbD_extractLsb']
  interval_cases i <;> simp

@[simp] theorem reservedZero_packN (o : Op) : reservedZero .N (packN o) = true := by
  cases o <;> decide

@[simp] theorem reservedZero_packH (o : Op) (imm : Half) :
    reservedZero .H (packH o imm) = true := by
  simp only [reservedZero, beq_iff_eq]
  apply BitVec.eq_of_getLsbD_eq
  intro i hi
  simp only [packH, BitVec.getLsbD_append, BitVec.getLsbD_extractLsb']
  interval_cases i <;> simp

@[simp] theorem reservedZero_packS (o : Op) (s : SlotNo) :
    reservedZero .S (packS o s) = true := by
  simp only [reservedZero, beq_iff_eq]
  apply BitVec.eq_of_getLsbD_eq
  intro i hi
  simp only [packS, BitVec.getLsbD_append, BitVec.getLsbD_extractLsb']
  interval_cases i <;> simp

@[simp] theorem reservedZero_packSI (o : Op) (s : SlotNo) (imm : Half) :
    reservedZero .SI (packSI o s imm) = true := by
  simp only [reservedZero, beq_iff_eq]
  apply BitVec.eq_of_getLsbD_eq
  intro i hi
  simp only [packSI, BitVec.getLsbD_append, BitVec.getLsbD_extractLsb']
  interval_cases i <;> simp

@[simp] theorem reservedZero_packT (o : Op) (d a b : SlotNo) :
    reservedZero .T (packT o d a b) = true := by
  simp only [reservedZero, beq_iff_eq]
  apply BitVec.eq_of_getLsbD_eq
  intro i hi
  simp only [packT, BitVec.getLsbD_append, BitVec.getLsbD_extractLsb']
  interval_cases i <;> simp

end Sys2Proof
end

