-- ==== Sys2Proof/Laws/Flags.lean ====
section
/-! SUPPORT. The fields of STATUS after each write of it. -/

namespace Sys2Proof.Machine

@[simp] theorem errOf_packStatus (e : BitVec 4) (t k : Bool) : errOf (packStatus e t k) = e := by
  revert e t k; decide

@[simp] theorem tOf_packStatus (e : BitVec 4) (t k : Bool) : tOf (packStatus e t k) = t := by
  revert e t k; decide

@[simp] theorem stickyOf_packStatus (e : BitVec 4) (t k : Bool) :
    stickyOf (packStatus e t k) = k := by
  revert e t k; decide

@[simp] theorem reserved_packStatus (e : BitVec 4) (t k : Bool) :
    packStatus e t k &&& statusReserved = 0#32 := by
  revert e t k; decide

@[simp] theorem errOf_statusRaised (e : ErrorCode) (st : Word) :
    errOf (statusRaised e st) = e.code := errOf_packStatus _ _ _

@[simp] theorem tOf_statusRaised (e : ErrorCode) (st : Word) :
    tOf (statusRaised e st) = tOf st := tOf_packStatus _ _ _

@[simp] theorem stickyOf_statusRaised (e : ErrorCode) (st : Word) :
    stickyOf (statusRaised e st) = true := stickyOf_packStatus _ _ _

@[simp] theorem reserved_statusRaised (e : ErrorCode) (st : Word) :
    statusRaised e st &&& statusReserved = 0#32 := reserved_packStatus _ _ _

@[simp] theorem errOf_statusTested (t : Bool) (st : Word) : errOf (statusTested t st) = 0#4 :=
  errOf_packStatus _ _ _

@[simp] theorem tOf_statusTested (t : Bool) (st : Word) : tOf (statusTested t st) = t :=
  tOf_packStatus _ _ _

@[simp] theorem stickyOf_statusTested (t : Bool) (st : Word) :
    stickyOf (statusTested t st) = stickyOf st := stickyOf_packStatus _ _ _

@[simp] theorem reserved_statusTested (t : Bool) (st : Word) :
    statusTested t st &&& statusReserved = 0#32 := reserved_packStatus _ _ _

@[simp] theorem errOf_statusOk (st : Word) : errOf (statusOk st) = 0#4 := errOf_packStatus _ _ _

@[simp] theorem tOf_statusOk (st : Word) : tOf (statusOk st) = tOf st := tOf_packStatus _ _ _

@[simp] theorem stickyOf_statusOk (st : Word) : stickyOf (statusOk st) = stickyOf st :=
  stickyOf_packStatus _ _ _

@[simp] theorem reserved_statusOk (st : Word) : statusOk st &&& statusReserved = 0#32 :=
  reserved_packStatus _ _ _

/-! ## Writing the same again -/

@[simp] theorem statusOk_statusOk (st : Word) : statusOk (statusOk st) = statusOk st := by
  simp [statusOk]

@[simp] theorem statusTested_statusTested (t : Bool) (st : Word) :
    statusTested t (statusTested t st) = statusTested t st := by
  simp [statusTested]

@[simp] theorem statusRaised_statusRaised (e : ErrorCode) (st : Word) :
    statusRaised e (statusRaised e st) = statusRaised e st := by
  simp [statusRaised]

/-! ## The codes (R211) -/

/-- Every error has a code of its own. -/
theorem errorCode_injective {e f : ErrorCode} (h : e.code = f.code) : e = f := by
  cases e <;> cases f <;> first | rfl | (exact absurd h (by decide))

/-- No code is above 7 (R211). -/
theorem errorCode_le_seven (e : ErrorCode) : e.code.toNat ≤ 7 := by cases e <;> decide

end Sys2Proof.Machine
end

