-- ==== Sys2Proof/Laws/Memory.lean ====
section
/-! SUPPORT. The laws of a slot's storage words: reading after writing, and that every operation keeps
the canonical form. -/

namespace Sys2Proof.Machine

namespace Memory

@[simp] theorem read_nil (w : Nat) : read [] w = unlisted := rfl

theorem read_cons (a : Nat) (v : Word) (rest : Memory) (w : Nat) :
    read ((a, v) :: rest) w = if a = w then v else read rest w := rfl

/-! ## Read after write -/

theorem read_erase (mem : Memory) (w u : Nat) :
    (mem.erase w).read u = if u = w then unlisted else mem.read u := by
  induction mem with
  | nil => simp [erase]
  | cons c rest ih =>
    obtain ⟨a, x⟩ := c
    by_cases haw : a = w
    · subst haw
      have : erase ((a, x) :: rest) a = erase rest a := by simp [erase]
      rw [this, ih, read_cons]
      by_cases hu : u = a
      · simp [hu]
      · simp [hu, Ne.symm hu]
    · have : erase ((a, x) :: rest) w = (a, x) :: erase rest w := by simp [erase, haw]
      rw [this, read_cons, read_cons, ih]
      by_cases hau : a = u
      · subst hau; simp [haw]
      · simp [hau]

theorem read_insert_self (mem : Memory) (w : Nat) (v : Word) (h : ∀ c ∈ mem, c.1 ≠ w) :
    (mem.insert w v).read w = v := by
  induction mem with
  | nil => simp [insert, read_cons]
  | cons c rest ih =>
    obtain ⟨a, x⟩ := c
    have ha : a ≠ w := h (a, x) (by simp)
    by_cases hlt : w < a
    · simp [insert, hlt, read_cons]
    · simp only [insert, hlt, if_false, read_cons, ha]
      exact ih fun c hc => h c (by simp [hc])

theorem read_insert_ne (mem : Memory) (w u : Nat) (v : Word) (h : u ≠ w) :
    (mem.insert w v).read u = mem.read u := by
  induction mem with
  | nil => simp [insert, read_cons, Ne.symm h]
  | cons c rest ih =>
    obtain ⟨a, x⟩ := c
    by_cases hlt : w < a
    · simp [insert, hlt, read_cons, Ne.symm h]
    · simp [insert, hlt, read_cons, ih]

theorem mem_erase {mem : Memory} {w : Nat} {c : Nat × Word} :
    c ∈ mem.erase w ↔ c ∈ mem ∧ c.1 ≠ w := by
  simp [erase, List.mem_filter]

/-- Reading after a write: the word written at its index, every other word as before. -/
theorem read_write (mem : Memory) (w u : Nat) (v : Word) :
    (mem.write w v).read u = if u = w then v else mem.read u := by
  unfold write
  split
  · next hv => rw [read_erase, hv]
  · next hv =>
    by_cases hu : u = w
    · subst hu
      rw [read_insert_self _ _ _ fun c hc => (mem_erase.1 hc).2]; simp
    · rw [read_insert_ne _ _ _ _ hu, read_erase, if_neg hu, if_neg hu]

theorem fill_zero (mem : Memory) (f : Nat → Word) : mem.fill 0 f = mem := rfl

theorem fill_succ (mem : Memory) (n : Nat) (f : Nat → Word) :
    mem.fill (n + 1) f = (mem.fill n f).write n (f n) := by
  simp [fill, List.range_succ]

/-- Reading after the loop of R150 and R180. -/
theorem read_fill (mem : Memory) (n : Nat) (f : Nat → Word) (u : Nat) :
    (mem.fill n f).read u = if u < n then f u else mem.read u := by
  induction n with
  | zero => simp [fill_zero]
  | succ n ih =>
    rw [fill_succ, read_write, ih]
    by_cases h : u = n
    · simp [h]
    · have : (u < n + 1) = (u < n) := by simp; omega
      simp [h, this]

/-! ## The canonical form is kept -/

theorem wf_cons (a : Nat) (x : Word) (rest : Memory) :
    wf ((a, x) :: rest) = true ↔
      x ≠ unlisted ∧ (∀ c ∈ rest, a < c.1) ∧ wf rest = true := by
  simp [wf, and_assoc]

theorem wf_erase {mem : Memory} (w : Nat) (h : mem.wf = true) : (mem.erase w).wf = true := by
  induction mem with
  | nil => rfl
  | cons c rest ih =>
    obtain ⟨a, x⟩ := c
    rw [wf_cons] at h
    by_cases haw : a = w
    · have : erase ((a, x) :: rest) w = erase rest w := by simp [erase, haw]
      rw [this]; exact ih h.2.2
    · have : erase ((a, x) :: rest) w = (a, x) :: erase rest w := by simp [erase, haw]
      rw [this, wf_cons]
      exact ⟨h.1, fun c hc => h.2.1 c (mem_erase.1 hc).1, ih h.2.2⟩

theorem mem_insert {mem : Memory} {w : Nat} {v : Word} {c : Nat × Word} :
    c ∈ mem.insert w v ↔ c = (w, v) ∨ c ∈ mem := by
  induction mem with
  | nil => simp [insert]
  | cons d rest ih =>
    obtain ⟨a, x⟩ := d
    by_cases hlt : w < a
    · simp [insert, hlt]
    · simp [insert, hlt, ih]; tauto

theorem wf_insert {mem : Memory} {w : Nat} {v : Word} (h : mem.wf = true) (hv : v ≠ unlisted)
    (hw : ∀ c ∈ mem, c.1 ≠ w) : (mem.insert w v).wf = true := by
  induction mem with
  | nil => simp [insert, hv, wf]
  | cons d rest ih =>
    obtain ⟨a, x⟩ := d
    have h' := (wf_cons a x rest).1 h
    have haw : a ≠ w := hw (a, x) (by simp)
    by_cases hlt : w < a
    · simp only [insert, hlt, if_true]
      rw [wf_cons]
      refine ⟨hv, ?_, h⟩
      intro c hc
      rcases List.mem_cons.1 hc with rfl | hc
      · exact hlt
      · exact Nat.lt_trans hlt (h'.2.1 c hc)
    · simp only [insert, hlt, if_false]
      rw [wf_cons]
      refine ⟨h'.1, ?_, ih h'.2.2 fun c hc => hw c (by simp [hc])⟩
      intro c hc
      rcases mem_insert.1 hc with rfl | hc
      · simp; omega
      · exact h'.2.1 c hc

/-- A write keeps the canonical form. -/
theorem wf_write {mem : Memory} (w : Nat) (v : Word) (h : mem.wf = true) :
    (mem.write w v).wf = true := by
  unfold write
  split
  · exact wf_erase w h
  · next hv => exact wf_insert (wf_erase w h) hv fun c hc => (mem_erase.1 hc).2

/-- The loop of R150 and R180 keeps the canonical form. -/
theorem wf_fill {mem : Memory} (n : Nat) (f : Nat → Word) (h : mem.wf = true) :
    (mem.fill n f).wf = true := by
  induction n with
  | zero => exact h
  | succ n ih => rw [fill_succ]; exact wf_write n (f n) ih

/-! ## Only words that exist are listed -/

/-- A write below a bound lists no index at or above it. -/
theorem below_write {mem : Memory} {bound : Nat} (w : Nat) (v : Word)
    (h : ∀ c ∈ mem, c.1 < bound) (hw : w < bound) : ∀ c ∈ mem.write w v, c.1 < bound := by
  intro c hc
  unfold write at hc
  split at hc
  · exact h c (mem_erase.1 hc).1
  · rcases mem_insert.1 hc with rfl | hc
    · exact hw
    · exact h c (mem_erase.1 hc).1

theorem below_fill {mem : Memory} {bound : Nat} (n : Nat) (f : Nat → Word)
    (h : ∀ c ∈ mem, c.1 < bound) (hn : n ≤ bound) : ∀ c ∈ mem.fill n f, c.1 < bound := by
  induction n with
  | zero => exact h
  | succ n ih => rw [fill_succ]; exact below_write n (f n) (ih (by omega)) (by omega)

/-! ## Equal memories are equal data -/

theorem read_of_lt {mem : Memory} {w : Nat} (h : ∀ c ∈ mem, w < c.1) : mem.read w = unlisted := by
  induction mem with
  | nil => rfl
  | cons c rest ih =>
    obtain ⟨a, x⟩ := c
    have ha : w < a := h (a, x) (by simp)
    rw [read_cons, if_neg (by omega)]
    exact ih fun c hc => h c (by simp [hc])

/-- Two canonical memories that read the same are the same list. -/
theorem eq_of_read_eq {a b : Memory} (ha : a.wf = true) (hb : b.wf = true)
    (h : ∀ w, a.read w = b.read w) : a = b := by
  induction a generalizing b with
  | nil =>
    cases b with
    | nil => rfl
    | cons c rest =>
      obtain ⟨w, x⟩ := c
      have := h w
      rw [read_cons, if_pos rfl] at this
      exact absurd this.symm ((wf_cons w x rest).1 hb).1
  | cons c rest ih =>
    obtain ⟨w, x⟩ := c
    have ha' := (wf_cons w x rest).1 ha
    cases b with
    | nil =>
      have := h w
      rw [read_cons, if_pos rfl] at this
      exact absurd this ha'.1
    | cons d rest' =>
      obtain ⟨u, y⟩ := d
      have hb' := (wf_cons u y rest').1 hb
      have hwu : w = u := by
        rcases Nat.lt_trichotomy w u with hlt | heq | hlt
        · have h1 := h w
          rw [read_cons, if_pos rfl, read_cons, if_neg (by omega),
            read_of_lt fun c hc => Nat.lt_trans hlt (hb'.2.1 c hc)] at h1
          exact absurd h1 ha'.1
        · exact heq
        · have h1 := h u
          rw [read_cons, if_neg (by omega), read_cons, if_pos rfl,
            read_of_lt fun c hc => Nat.lt_trans hlt (ha'.2.1 c hc)] at h1
          exact absurd h1.symm hb'.1
      subst hwu
      have hxy : x = y := by simpa [read_cons] using h w
      subst hxy
      congr 1
      refine ih ha'.2.2 hb'.2.2 fun z => ?_
      by_cases hz : w = z
      · subst hz; rw [read_of_lt ha'.2.1, read_of_lt hb'.2.1]
      · simpa [read_cons, hz] using h z

end Memory

end Sys2Proof.Machine
end

