-- ==== Sys2Proof/Laws/State.lean ====
section
/-! SUPPORT. Each update of the state, field by field. -/

namespace Sys2Proof.Machine

namespace State

variable (s : State) (n : SlotNo) (x : Slot) (c : Command) (o : Option Command)

@[simp] theorem setSlot_acc : (s.setSlot n x).acc = s.acc := rfl
@[simp] theorem setSlot_result : (s.setSlot n x).result = s.result := rfl
@[simp] theorem setSlot_status : (s.setSlot n x).status = s.status := rfl
@[simp] theorem setSlot_wMax : (s.setSlot n x).wMax = s.wMax := rfl
@[simp] theorem setSlot_port : (s.setSlot n x).port = s.port := rfl
@[simp] theorem setSlot_stream : (s.setSlot n x).stream = s.stream := rfl
@[simp] theorem setSlot_slots : (s.setSlot n x).slots = s.slots.set n.toNat x := rfl

@[simp] theorem resetRegisters_acc : s.resetRegisters.acc = fnvOffset := rfl
@[simp] theorem resetRegisters_result : s.resetRegisters.result = 0#32 := rfl
@[simp] theorem resetRegisters_status : s.resetRegisters.status = 0#32 := rfl
@[simp] theorem resetRegisters_wMax : s.resetRegisters.wMax = s.wMax := rfl
@[simp] theorem resetRegisters_port : s.resetRegisters.port = s.port := rfl
@[simp] theorem resetRegisters_stream : s.resetRegisters.stream = s.stream := rfl
@[simp] theorem resetRegisters_slots :
    s.resetRegisters.slots = s.slots.map Slot.unconfigure := rfl

@[simp] theorem accept_acc : (s.accept c).acc = s.acc := rfl
@[simp] theorem accept_result : (s.accept c).result = s.result := rfl
@[simp] theorem accept_status : (s.accept c).status = s.status := rfl
@[simp] theorem accept_slots : (s.accept c).slots = s.slots := rfl
@[simp] theorem accept_wMax : (s.accept c).wMax = s.wMax := rfl
@[simp] theorem accept_stream : (s.accept c).stream = s.stream := rfl
@[simp] theorem accept_done : (s.accept c).port.done = false := rfl
@[simp] theorem accept_offered : (s.accept c).port.offered = none := rfl
@[simp] theorem accept_accepted : (s.accept c).port.accepted = s.port.accepted + 1 := rfl
@[simp] theorem accept_phase :
    (s.accept c).port.phase = .executing c (Config.extraCycles c s) := rfl

@[simp] theorem completed_acc : s.completed.acc = s.acc := rfl
@[simp] theorem completed_result : s.completed.result = s.result := rfl
@[simp] theorem completed_status : s.completed.status = s.status := rfl
@[simp] theorem completed_slots : s.completed.slots = s.slots := rfl
@[simp] theorem completed_wMax : s.completed.wMax = s.wMax := rfl
@[simp] theorem completed_stream : s.completed.stream = s.stream := rfl
@[simp] theorem completed_phase : s.completed.port.phase = .idle := rfl
@[simp] theorem completed_done : s.completed.port.done = true := rfl
@[simp] theorem completed_offered : s.completed.port.offered = s.port.offered := rfl
@[simp] theorem completed_accepted : s.completed.port.accepted = s.port.accepted := rfl

@[simp] theorem rest_acc : s.rest.acc = s.acc := rfl
@[simp] theorem rest_result : s.rest.result = s.result := rfl
@[simp] theorem rest_status : s.rest.status = s.status := rfl
@[simp] theorem rest_slots : s.rest.slots = s.slots := rfl
@[simp] theorem rest_wMax : s.rest.wMax = s.wMax := rfl
@[simp] theorem rest_stream : s.rest.stream = s.stream := rfl
@[simp] theorem rest_phase : s.rest.port.phase = .idle := rfl
@[simp] theorem rest_done : s.rest.port.done = false := rfl

@[simp] theorem resetEdge_acc : (s.resetEdge o).acc = fnvOffset := rfl
@[simp] theorem resetEdge_result : (s.resetEdge o).result = 0#32 := rfl
@[simp] theorem resetEdge_status : (s.resetEdge o).status = 0#32 := rfl
@[simp] theorem resetEdge_phase : (s.resetEdge o).port.phase = .idle := rfl
@[simp] theorem resetEdge_done : (s.resetEdge o).port.done = false := rfl
@[simp] theorem resetEdge_offered : (s.resetEdge o).port.offered = o := rfl
@[simp] theorem resetEdge_accepted : (s.resetEdge o).port.accepted = s.port.accepted := rfl
@[simp] theorem resetEdge_slots :
    (s.resetEdge o).slots = s.abandon.slots.map Slot.unconfigure := rfl
@[simp] theorem resetEdge_wMax : (s.resetEdge o).wMax = s.abandon.wMax := rfl
@[simp] theorem resetEdge_stream : (s.resetEdge o).stream = s.abandon.stream := rfl

/-- An abandoned command leaves nothing but storage. -/
theorem abandon_eq : s.abandon = { s with slots := s.abandon.slots } := by
  unfold abandon
  split
  · split <;> rfl
  · rfl

@[simp] theorem abandon_wMax : s.abandon.wMax = s.wMax := by rw [abandon_eq]
@[simp] theorem abandon_stream : s.abandon.stream = s.stream := by rw [abandon_eq]

end State

end Sys2Proof.Machine
end

