-- ==== Sys2Proof/Laws/Slots.lean ====
section
/-! SUPPORT. The laws of one slot (its words, its bits, a filter built in it) and of the machine's
list of slots. -/

namespace Sys2Proof.Machine

namespace Slot

/-! ## Words -/

@[simp] theorem write_m (x : Slot) (w : Nat) (v : Word) : (x.write w v).m = x.m := rfl
@[simp] theorem write_k (x : Slot) (w : Nat) (v : Word) : (x.write w v).k = x.k := rfl

theorem read_write (x : Slot) (w u : Nat) (v : Word) :
    (x.write w v).read u = if u = w then v else x.read u := Memory.read_write _ _ _ _

/-! ## Bits (R51) -/

/-- `Bit(s, p)` is bit `p mod 32` of word `p div 32`. -/
theorem bit_eq (x : Slot) (p : Nat) : x.bit p = (x.read (p / 32)).getLsbD (p % 32) := by
  unfold bit
  rw [Bool.eq_iff_iff, beq_iff_eq]
  constructor
  · intro h
    have := congrArg (fun v : Word => v.getLsbD 0) h
    simpa using this
  · intro h
    apply BitVec.eq_of_getLsbD_eq
    intro i hi
    by_cases h0 : i = 0
    · subst h0; simpa using h
    · simp [h0]

theorem getLsbD_one_shiftLeft (j i : Nat) (hi : i < 32) :
    ((1#32) <<< j).getLsbD i = decide (i = j) := by
  by_cases h : i = j
  · subst h; simp [hi]
  · simp only [h, decide_false, BitVec.getLsbD_shiftLeft, BitVec.getLsbD_one, hi]
    by_cases hlt : i < j
    · simp [hlt]
    · have : i - j ≠ 0 := by omega
      simp [this]

@[simp] theorem setBit_m (x : Slot) (p : Nat) : (x.setBit p).m = x.m := rfl
@[simp] theorem setBit_k (x : Slot) (p : Nat) : (x.setBit p).k = x.k := rfl

/-- `SetBit` sets its bit and no other. -/
theorem bit_setBit (x : Slot) (p q : Nat) : (x.setBit p).bit q = (x.bit q || decide (q = p)) := by
  have hq : q % 32 < 32 := Nat.mod_lt _ (by decide)
  rw [bit_eq, bit_eq, setBit, read_write]
  by_cases hw : q / 32 = p / 32
  · rw [if_pos hw, BitVec.getLsbD_or, getLsbD_one_shiftLeft _ _ hq, hw]
    congr 1
    have : (q % 32 = p % 32) ↔ (q = p) := by omega
    simp [this]
  · have hne : q ≠ p := fun h => hw (by rw [h])
    simp [hw, hne]

/-- The words that `SetBit` does not touch. -/
theorem read_setBit_ne (x : Slot) (p u : Nat) (h : u ≠ p / 32) : (x.setBit p).read u = x.read u := by
  rw [setBit, read_write, if_neg h]

@[simp] theorem setBits_nil (x : Slot) : x.setBits [] = x := rfl

@[simp] theorem setBits_cons (x : Slot) (p : Nat) (ps : List Nat) :
    x.setBits (p :: ps) = (x.setBit p).setBits ps := rfl

@[simp] theorem setBits_m (x : Slot) (ps : List Nat) : (x.setBits ps).m = x.m := by
  induction ps generalizing x with
  | nil => rfl
  | cons p ps ih => rw [setBits_cons, ih, setBit_m]

@[simp] theorem setBits_k (x : Slot) (ps : List Nat) : (x.setBits ps).k = x.k := by
  induction ps generalizing x with
  | nil => rfl
  | cons p ps ih => rw [setBits_cons, ih, setBit_k]

/-- ADD's loop sets the bits of its positions and no other. -/
theorem bit_setBits (x : Slot) (ps : List Nat) (q : Nat) :
    (x.setBits ps).bit q = (x.bit q || decide (q ∈ ps)) := by
  induction ps generalizing x with
  | nil => simp
  | cons p ps ih => rw [setBits_cons, ih, bit_setBit]; simp [Bool.or_assoc]

/-- The words that ADD's loop does not touch. -/
theorem read_setBits_ne (x : Slot) (ps : List Nat) (u : Nat) (h : ∀ p ∈ ps, u ≠ p / 32) :
    (x.setBits ps).read u = x.read u := by
  induction ps generalizing x with
  | nil => rfl
  | cons p ps ih =>
    rw [setBits_cons, ih _ fun q hq => h q (by simp [hq]), read_setBit_ne _ _ _ (h p (by simp))]

/-- The positions of a key in a slot (R130). -/
theorem mem_positions {x : Slot} {a : Word} {p : Nat} :
    p ∈ x.positions a ↔
      ∃ i, i < x.k.toNat ∧ p = position a (Machine.remix a) x.m.toNat i := by
  simp [positions, indices, bitCount, hashCount, eq_comm]

/-- Two words are equal when their bits are: the bits of a word are 32 positions of its slot. -/
theorem read_eq_of_bit_eq {x y : Slot} {w : Nat}
    (h : ∀ j, j < 32 → x.bit (32 * w + j) = y.bit (32 * w + j)) : x.read w = y.read w := by
  apply BitVec.eq_of_getLsbD_eq
  intro j hj
  have := h j hj
  rw [bit_eq, bit_eq] at this
  have hd : (32 * w + j) / 32 = w := by omega
  have hm : (32 * w + j) % 32 = j := by omega
  rwa [hd, hm] at this

/-! ## A filter built in a slot (R150, R180) -/

@[simp] theorem build_m (x : Slot) (m : Nat) (k : Half) (f : Nat → Word) :
    (x.build m k f).m = BitVec.ofNat 32 m := rfl

@[simp] theorem build_k (x : Slot) (m : Nat) (k : Half) (f : Nat → Word) :
    (x.build m k f).k = k := rfl

theorem read_build (x : Slot) (m : Nat) (k : Half) (f : Nat → Word) (w : Nat) :
    (x.build m k f).read w = if w < m / 32 then f w else x.read w := Memory.read_fill _ _ _ _

/-! ## The canonical form -/

theorem wf_write {x : Slot} (w : Nat) (v : Word) (h : x.words.wf = true) :
    (x.write w v).words.wf = true := Memory.wf_write w v h

theorem wf_setBits {x : Slot} (ps : List Nat) (h : x.words.wf = true) :
    (x.setBits ps).words.wf = true := by
  induction ps generalizing x with
  | nil => exact h
  | cons p ps ih => exact ih (wf_write _ _ h)

theorem wf_build {x : Slot} (m : Nat) (k : Half) (f : Nat → Word) (h : x.words.wf = true) :
    (x.build m k f).words.wf = true := Memory.wf_fill _ _ h

theorem below_setBits {x : Slot} {bound : Nat} (ps : List Nat) (h : ∀ c ∈ x.words, c.1 < bound)
    (hp : ∀ p ∈ ps, p / 32 < bound) : ∀ c ∈ (x.setBits ps).words, c.1 < bound := by
  induction ps generalizing x with
  | nil => exact h
  | cons p ps ih =>
    exact ih (Memory.below_write _ _ h (hp p (by simp))) fun q hq => hp q (by simp [hq])

theorem below_build {x : Slot} {bound : Nat} (m : Nat) (k : Half) (f : Nat → Word)
    (h : ∀ c ∈ x.words, c.1 < bound) (hm : m / 32 ≤ bound) :
    ∀ c ∈ (x.build m k f).words, c.1 < bound := Memory.below_fill _ _ h hm

end Slot

/-! ## The list of slots -/

namespace State

@[simp] theorem numSlots_setSlot (s : State) (n : SlotNo) (x : Slot) :
    (s.setSlot n x).numSlots = s.numSlots := by simp [numSlots]

theorem badSlot_eq_false {s : State} {n : SlotNo} :
    s.badSlot n = false ↔ n.toNat < s.slots.length :=
  decide_eq_false_iff_not.trans Nat.not_le

theorem badSlot_eq_true {s : State} {n : SlotNo} :
    s.badSlot n = true ↔ s.slots.length ≤ n.toNat :=
  decide_eq_true_iff

theorem slot_eq_getElem {s : State} {n : SlotNo} (h : n.toNat < s.slots.length) :
    s.slot n = s.slots[n.toNat] := by
  simp [slot, slotNumber, List.getD_eq_getElem?_getD, h]

theorem slot_mem {s : State} {n : SlotNo} (h : n.toNat < s.slots.length) : s.slot n ∈ s.slots := by
  rw [slot_eq_getElem h]; exact List.getElem_mem h

theorem slot_setSlot_self {s : State} {n : SlotNo} (x : Slot) (h : n.toNat < s.slots.length) :
    (s.setSlot n x).slot n = x := by
  simp [slot, slotNumber, List.getD_eq_getElem?_getD, h]

theorem slot_setSlot_ne {s : State} {n j : SlotNo} (x : Slot) (h : j ≠ n) :
    (s.setSlot n x).slot j = s.slot j := by
  have : n.toNat ≠ j.toNat := fun e => h (BitVec.eq_of_toNat_eq e).symm
  simp [slot, slotNumber, List.getD_eq_getElem?_getD, List.getElem?_set_ne this]

theorem slots_setSlot_ne (s : State) (n : SlotNo) (x : Slot) (j : Nat) (h : j ≠ n.toNat) :
    (s.setSlot n x).slots[j]? = s.slots[j]? := by
  simp [List.getElem?_set_ne (Ne.symm h)]

/-- A slot that no list position holds reads as an empty one (log entry 16). -/
theorem slot_of_length_le {s : State} {n : SlotNo} (h : s.slots.length ≤ n.toNat) :
    s.slot n = Slot.empty := by
  simp [slot, slotNumber, List.getD_eq_getElem?_getD, h]

/-- States whose lists agree at an index agree on the slot. -/
theorem slot_congr {s t : State} {n : SlotNo} (h : t.slots[n.toNat]? = s.slots[n.toNat]?) :
    t.slot n = s.slot n := by
  simp [slot, slotNumber, List.getD_eq_getElem?_getD, h]

/-- A property of every slot is kept when the slot put in has it. -/
theorem forall_setSlot {P : Slot → Prop} {s : State} {n : SlotNo} {x : Slot}
    (h : ∀ y ∈ s.slots, P y) (hx : P x) : ∀ y ∈ (s.setSlot n x).slots, P y := by
  intro y hy
  rcases List.mem_or_eq_of_mem_set hy with hy | rfl
  · exact h y hy
  · exact hx

end State

end Sys2Proof.Machine
end

