-- ==== Sys2Proof/Laws/Exec.lean ====
section
/-! SUPPORT. What each instruction can do, said once: an error of its table, or its one effect. -/

namespace Sys2Proof.Machine

/-! ## Ending a command -/

/-- `raise` answers a state that satisfies R212. -/
theorem raise_raised (s : State) (e : ErrorCode) :
    ∃ t, s.raise e = .next t ∧ Raised e s t :=
  ⟨_, rfl, by simp [Raised, KeepsMachine]⟩

theorem raise_inj {s t : State} {e : ErrorCode} (h : s.raise e = .next t) :
    t = { s with status := statusRaised e s.status } := by
  unfold State.raise at h
  injection h with h
  exact h.symm

theorem succeed_inj {s t : State} (h : s.succeed = .next t) :
    t = { s with status := statusOk s.status } := by
  unfold State.succeed at h
  injection h with h
  exact h.symm

theorem succeedWith_inj {s t : State} {v : Word} (h : s.succeedWith v = .next t) :
    t = { s with result := v, status := statusOk s.status } := by
  unfold State.succeedWith at h
  injection h with h
  exact h.symm

theorem succeedTest_inj {s t : State} {b : Bool} (h : s.succeedTest b = .next t) :
    t = { s with result := (BitVec.ofBool b).setWidth 32, status := statusTested b s.status } := by
  unfold State.succeedTest at h
  injection h with h
  exact h.symm

/-! ## The effect of each instruction -/

/-- The slot exists and holds a filter. -/
abbrev Usable (s : State) (n : SlotNo) : Prop :=
  n.toNat < s.slots.length ∧ (s.slot n).m ≠ 0#32

/-- The effect of UNION and INTERSECT. -/
def CombineEffect (f : Word → Word → Word) (d a b : SlotNo) (s t : State) : Prop :=
  d.toNat < s.slots.length ∧ Usable s a ∧ Usable s b ∧ (s.slot a).m = (s.slot b).m ∧
    t =
      { s.setSlot d
          ((s.slot d).build (s.slot a).bitCount (s.slot a).k
            (fun w => f ((s.slot a).read w) ((s.slot b).read w))) with
        status := statusOk s.status }

/-- When an instruction succeeds in `s`, and the state it then answers. -/
def Effect (i : Instr) (s t : State) : Prop :=
  match i with
  | .nop => t = { s with status := statusOk s.status }
  | .hinit => t = { s with acc := fnvOffset, status := statusOk s.status }
  | .hunit u => t = { s with acc := fnvStep s.acc u, status := statusOk s.status }
  | .hload v => t = { s with acc := v, status := statusOk s.status }
  | .hread => t = { s with result := s.acc, status := statusOk s.status }
  | .remix => t = { s with result := remix s.acc, status := statusOk s.status }
  | .index n imm =>
    Usable s n ∧ imm.toNat < (s.slot n).k.toNat ∧
      t =
        { s with
          result := BitVec.ofNat 32 (position s.acc (remix s.acc) (s.slot n).m.toNat imm.toNat)
          status := statusOk s.status }
  | .config n k data =>
    n.toNat < s.slots.length ∧ 0 < data.toInt ∧ k ≠ 0#16 ∧
      roundUp32 data.toInt.toNat ≤ 32 * s.wMax ∧
      t =
        { s.setSlot n ((s.slot n).build (roundUp32 data.toInt.toNat) k (fun _ => 0#32)) with
          status := statusOk s.status }
  | .add n =>
    Usable s n ∧
      t =
        { s.setSlot n ((s.slot n).setBits ((s.slot n).positions s.acc)) with
          status := statusOk s.status }
  | .test n =>
    Usable s n ∧
      t =
        { s with
          result := (BitVec.ofBool ((s.slot n).allSet ((s.slot n).positions s.acc))).setWidth 32
          status := statusTested ((s.slot n).allSet ((s.slot n).positions s.acc)) s.status }
  | .rdword n w =>
    Usable s n ∧ w.toNat < (s.slot n).wordCount ∧
      t = { s with result := (s.slot n).read w.toNat, status := statusOk s.status }
  | .rdm n =>
    n.toNat < s.slots.length ∧ t = { s with result := (s.slot n).m, status := statusOk s.status }
  | .rdk n =>
    n.toNat < s.slots.length ∧
      t = { s with result := (s.slot n).k.setWidth 32, status := statusOk s.status }
  | .union d a b => CombineEffect (fun x y => x ||| y) d a b s t
  | .intersect d a b => CombineEffect (fun x y => x &&& y) d a b s t

/-- The error `e` of the instruction's table was raised, and nothing else happened. -/
def ErrorEffect (i : Instr) (s t : State) : Prop :=
  ∃ e ∈ errorsOf i.op, t = { s with status := statusRaised e s.status }

theorem configured_iff {x : Slot} : x.configured = true ↔ x.m ≠ 0#32 := by
  simp [Slot.configured]

theorem combine_cases {f : Word → Word → Word} {d a b : SlotNo} {s t : State}
    (h : combine f d a b s = .next t) :
    (∃ e ∈ [ErrorCode.badSlot, .notConfigured, .incompatibleFilter],
        t = { s with status := statusRaised e s.status }) ∨ CombineEffect f d a b s t := by
  unfold combine at h
  split at h
  · exact .inl ⟨_, by simp, raise_inj h⟩
  · next h1 =>
    split at h
    · exact .inl ⟨_, by simp, raise_inj h⟩
    · next h2 =>
      split at h
      · exact .inl ⟨_, by simp, raise_inj h⟩
      · next h3 =>
        simp only [Bool.or_eq_true, not_or, Bool.not_eq_true, State.badSlot_eq_false,
          Bool.not_eq_true', Bool.not_eq_false, configured_iff] at h1 h2
        exact .inr ⟨h1.1.1, ⟨h1.1.2, h2.1⟩, ⟨h1.2, h2.2⟩, not_not.1 h3, succeed_inj h⟩

/-- An instruction that answers a next state either raised an error of its table or had its effect. -/
theorem exec_cases {i : Instr} {s t : State} (h : exec i s = .next t) :
    ErrorEffect i s t ∨ Effect i s t := by
  cases i with
  | nop => exact .inr (succeed_inj (s := s) h)
  | hinit => exact .inr (succeed_inj (s := { s with acc := fnvOffset }) h)
  | hunit u => exact .inr (succeed_inj (s := { s with acc := fnvStep s.acc u }) h)
  | hload v => exact .inr (succeed_inj (s := { s with acc := v }) h)
  | hread => exact .inr (succeedWith_inj (s := s) (v := s.acc) h)
  | remix => exact .inr (succeedWith_inj (s := s) (v := remix s.acc) h)
  | index n imm =>
    simp only [exec, execIndex] at h
    split at h
    · exact .inl ⟨_, by simp [errorsOf, Instr.op], raise_inj h⟩
    · next h1 =>
      split at h
      · exact .inl ⟨_, by simp [errorsOf, Instr.op], raise_inj h⟩
      · next h2 =>
        split at h
        · exact .inl ⟨_, by simp [errorsOf, Instr.op], raise_inj h⟩
        · next h3 =>
          simp only [Bool.not_eq_true, State.badSlot_eq_false, Bool.not_eq_true',
            Bool.not_eq_false, configured_iff] at h1 h2
          exact .inr ⟨⟨h1, h2⟩, Nat.not_le.1 h3, succeedWith_inj h⟩
  | config n k data =>
    simp only [exec, execConfig] at h
    split at h
    · exact .inl ⟨_, by simp [errorsOf, Instr.op], raise_inj h⟩
    · next h1 =>
      split at h
      · exact .inl ⟨_, by simp [errorsOf, Instr.op], raise_inj h⟩
      · next h2 =>
        split at h
        · exact .inl ⟨_, by simp [errorsOf, Instr.op], raise_inj h⟩
        · next h3 =>
          simp only [Bool.not_eq_true, State.badSlot_eq_false] at h1
          rw [not_or] at h2
          exact .inr ⟨h1, Int.not_le.1 h2.1, h2.2, Nat.not_lt.1 h3, succeed_inj h⟩
  | add n =>
    simp only [exec, execAdd] at h
    split at h
    · exact .inl ⟨_, by simp [errorsOf, Instr.op], raise_inj h⟩
    · next h1 =>
      split at h
      · exact .inl ⟨_, by simp [errorsOf, Instr.op], raise_inj h⟩
      · next h2 =>
        simp only [Bool.not_eq_true, State.badSlot_eq_false, Bool.not_eq_true',
          Bool.not_eq_false, configured_iff] at h1 h2
        exact .inr ⟨⟨h1, h2⟩, succeed_inj h⟩
  | test n =>
    simp only [exec, execTest] at h
    split at h
    · exact .inl ⟨_, by simp [errorsOf, Instr.op], raise_inj h⟩
    · next h1 =>
      split at h
      · exact .inl ⟨_, by simp [errorsOf, Instr.op], raise_inj h⟩
      · next h2 =>
        simp only [Bool.not_eq_true, State.badSlot_eq_false, Bool.not_eq_true',
          Bool.not_eq_false, configured_iff] at h1 h2
        exact .inr ⟨⟨h1, h2⟩, succeedTest_inj h⟩
  | rdword n w =>
    simp only [exec, execRdword] at h
    split at h
    · exact .inl ⟨_, by simp [errorsOf, Instr.op], raise_inj h⟩
    · next h1 =>
      split at h
      · exact .inl ⟨_, by simp [errorsOf, Instr.op], raise_inj h⟩
      · next h2 =>
        split at h
        · exact .inl ⟨_, by simp [errorsOf, Instr.op], raise_inj h⟩
        · next h3 =>
          simp only [Bool.not_eq_true, State.badSlot_eq_false, Bool.not_eq_true',
            Bool.not_eq_false, configured_iff] at h1 h2
          exact .inr ⟨⟨h1, h2⟩, Nat.not_le.1 h3, succeedWith_inj h⟩
  | rdm n =>
    simp only [exec, execRdm] at h
    split at h
    · exact .inl ⟨_, by simp [errorsOf, Instr.op], raise_inj h⟩
    · next h1 =>
      simp only [Bool.not_eq_true, State.badSlot_eq_false] at h1
      exact .inr ⟨h1, succeedWith_inj h⟩
  | rdk n =>
    simp only [exec, execRdk] at h
    split at h
    · exact .inl ⟨_, by simp [errorsOf, Instr.op], raise_inj h⟩
    · next h1 =>
      simp only [Bool.not_eq_true, State.badSlot_eq_false] at h1
      exact .inr ⟨h1, succeedWith_inj h⟩
  | union d a b => exact combine_cases h
  | intersect d a b => exact combine_cases h

/-- A command that answers a next state raised ILLEGAL_COMMAND or did what its instruction does. -/
theorem runCommand_cases {c : Command} {s t : State} (h : runCommand c s = .next t) :
    (t = { s with status := statusRaised .illegalCommand s.status } ∧ ∃ e, decode c = .error e) ∨
      ∃ i, decode c = .ok i ∧ (ErrorEffect i s t ∨ Effect i s t) := by
  unfold runCommand at h
  split at h
  · next i hi => exact .inr ⟨i, hi, exec_cases h⟩
  · next e he => exact .inl ⟨raise_inj h, e, he⟩

end Sys2Proof.Machine
end

