-- ==== Sys2Proof/Laws/PerInstr.lean ====
section
/-! SUPPORT. The per-instruction family EncodedInRow: the command word of an instruction matches its
own row of the opcode map (spec/30_encoding.md R80). -/

namespace Sys2Proof.Laws.EncodedInRow

/-- The row of R80 for the instruction's operation matches its command word. -/
def Statement (i : Instr) : Prop :=
  ∃ r ∈ opcodeMap, r.op = i.op ∧ r.matchesWord (encode i).word = true

/-- A word masked down to a constant, bit by bit. -/
theorem and_eq_of_bits {w mask pattern : Word}
    (h : ∀ i, i < 32 → (w.getLsbD i && mask.getLsbD i) = pattern.getLsbD i) :
    w &&& mask = pattern := by
  apply BitVec.eq_of_getLsbD_eq
  intro i hi
  rw [BitVec.getLsbD_and]
  exact h i hi

theorem nop : Statement .nop := ⟨⟨.nop, 0x00000000#32, 0xFFFFFFFF#32⟩, by simp [opcodeMap], rfl, by decide⟩

theorem hinit : Statement .hinit := ⟨⟨.hinit, 0x01000000#32, 0xFFFFFFFF#32⟩, by simp [opcodeMap], rfl, by decide⟩

theorem hunit (u : Half) : Statement (.hunit u) := by
  refine ⟨⟨.hunit, 0x02000000#32, 0xFFFF0000#32⟩, by simp [opcodeMap], rfl, ?_⟩
  simp only [OpcodeRow.matchesWord, beq_iff_eq, encode, packH, Instr.op, Op.code]
  refine and_eq_of_bits fun i hi => ?_
  simp only [BitVec.getLsbD_append]
  interval_cases i <;> simp

theorem hload (v : Word) : Statement (.hload v) :=
  ⟨⟨.hload, 0x03000000#32, 0xFFFFFFFF#32⟩, by simp [opcodeMap], rfl, by simp only [encode, Instr.op]; decide⟩

theorem hread : Statement .hread := ⟨⟨.hread, 0x04000000#32, 0xFFFFFFFF#32⟩, by simp [opcodeMap], rfl, by decide⟩

theorem remix : Statement .remix := ⟨⟨.remix, 0x08000000#32, 0xFFFFFFFF#32⟩, by simp [opcodeMap], rfl, by decide⟩

theorem index (s : SlotNo) (n : Half) : Statement (.index s n) := by
  refine ⟨⟨.index, 0x10000000#32, 0xFF0F0000#32⟩, by simp [opcodeMap], rfl, ?_⟩
  simp only [OpcodeRow.matchesWord, beq_iff_eq, encode, packSI, Instr.op, Op.code]
  refine and_eq_of_bits fun i hi => ?_
  simp only [BitVec.getLsbD_append]
  interval_cases i <;> simp

theorem config (s : SlotNo) (k : Half) (bits : Word) : Statement (.config s k bits) := by
  refine ⟨⟨.config, 0x20000000#32, 0xFF0F0000#32⟩, by simp [opcodeMap], rfl, ?_⟩
  simp only [OpcodeRow.matchesWord, beq_iff_eq, encode, packSI, Instr.op, Op.code]
  refine and_eq_of_bits fun i hi => ?_
  simp only [BitVec.getLsbD_append]
  interval_cases i <;> simp

theorem add (s : SlotNo) : Statement (.add s) :=
  ⟨⟨.add, 0x21000000#32, 0xFF0FFFFF#32⟩, by simp [opcodeMap], rfl, by revert s; decide⟩

theorem test (s : SlotNo) : Statement (.test s) :=
  ⟨⟨.test, 0x22000000#32, 0xFF0FFFFF#32⟩, by simp [opcodeMap], rfl, by revert s; decide⟩

theorem rdword (s : SlotNo) (w : Word) : Statement (.rdword s w) :=
  ⟨⟨.rdword, 0x23000000#32, 0xFF0FFFFF#32⟩, by simp [opcodeMap], rfl, by simp only [encode, Instr.op]; revert s; decide⟩

theorem rdm (s : SlotNo) : Statement (.rdm s) :=
  ⟨⟨.rdm, 0x24000000#32, 0xFF0FFFFF#32⟩, by simp [opcodeMap], rfl, by revert s; decide⟩

theorem rdk (s : SlotNo) : Statement (.rdk s) :=
  ⟨⟨.rdk, 0x25000000#32, 0xFF0FFFFF#32⟩, by simp [opcodeMap], rfl, by revert s; decide⟩

theorem union (d a b : SlotNo) : Statement (.union d a b) := by
  refine ⟨⟨.union, 0x30000000#32, 0xFF000FFF#32⟩, by simp [opcodeMap], rfl, ?_⟩
  simp only [OpcodeRow.matchesWord, beq_iff_eq, encode, packT, Instr.op, Op.code]
  refine and_eq_of_bits fun i hi => ?_
  simp only [BitVec.getLsbD_append]
  interval_cases i <;> simp

theorem intersect (d a b : SlotNo) : Statement (.intersect d a b) := by
  refine ⟨⟨.intersect, 0x31000000#32, 0xFF000FFF#32⟩, by simp [opcodeMap], rfl, ?_⟩
  simp only [OpcodeRow.matchesWord, beq_iff_eq, encode, packT, Instr.op, Op.code]
  refine and_eq_of_bits fun i hi => ?_
  simp only [BitVec.getLsbD_append]
  interval_cases i <;> simp

end Sys2Proof.Laws.EncodedInRow
end

