-- ==== Sys2Proof/Laws/Port.lean ====
section
/-! SUPPORT. Commands in sequence, and that no command sees or changes the port or the host's stream. -/

namespace Sys2Proof.Machine

/-- The sizes, the port and the stream are kept by every command. -/
theorem keepsMachine_of_runCommand {c : Command} {s t : State} (h : runCommand c s = .next t) :
    KeepsMachine s t := by
  rcases runCommand_cases h with ⟨rfl, _⟩ | ⟨i, _, ⟨_, _, rfl⟩ | hE⟩
  · simp [KeepsMachine]
  · simp [KeepsMachine]
  · cases i <;> simp only [Effect, CombineEffect] at hE
    all_goals first
      | (subst hE; simp [KeepsMachine])
      | (obtain ⟨_, rfl⟩ := hE; simp [KeepsMachine])
      | (obtain ⟨_, _, rfl⟩ := hE; simp [KeepsMachine])
      | (obtain ⟨_, _, _, _, rfl⟩ := hE; simp [KeepsMachine])

/-! ## Sequences -/

theorem runCommands_cons {c : Command} {cs : List Command} {s t : State}
    (h : runCommand c s = .next t) : runCommands (c :: cs) s = runCommands cs t := by
  simp [runCommands, h]

theorem exists_of_runCommands_cons {c : Command} {cs : List Command} {s u : State}
    (h : runCommands (c :: cs) s = .next u) :
    ∃ t, runCommand c s = .next t ∧ runCommands cs t = .next u := by
  unfold runCommands at h
  split at h
  · next t ht => exact ⟨t, ht, h⟩
  · cases h
  · cases h

theorem runCommands_append {cs ds : List Command} {s t : State}
    (h : runCommands cs s = .next t) : runCommands (cs ++ ds) s = runCommands ds t := by
  induction cs generalizing s with
  | nil => injection h with h; subst h; rfl
  | cons c cs ih =>
    obtain ⟨u, h1, h2⟩ := exists_of_runCommands_cons h
    rw [List.cons_append, runCommands_cons h1, ih h2]

/-! ## The port and the stream are not read -/

/-- An answer with another port and stream. -/
def withRest (p : Port) (es : List HostEvent) : Answer → Answer
  | .next t => .next { t with port := p, stream := es }
  | .fault r => .fault r
  | .refused r => .refused r

theorem withRest_ite {c : Prop} [Decidable c] (p : Port) (es : List HostEvent) (a b : Answer) :
    withRest p es (if c then a else b) = if c then withRest p es a else withRest p es b := by
  split <;> rfl

/-- A command does the same whatever the port and the stream hold. -/
theorem runCommand_withRest (c : Command) (s : State) (p : Port) (es : List HostEvent) :
    runCommand c { s with port := p, stream := es } = withRest p es (runCommand c s) := by
  unfold runCommand
  cases decode c with
  | error e => rfl
  | ok i =>
    dsimp only
    cases i <;>
      simp only [exec, execIndex, execConfig, execAdd, execTest, execRdword, execRdm, execRdk,
        execUnion, execIntersect, combine, withRest_ite]
    all_goals rfl

/-! ## What a reset leaves of the abandoned command's destination (log entry 7) -/

theorem read_abandoned (x y : Slot) (wMax : Nat) (free : Nat → Word) (w : Nat) :
    (x.abandoned y wMax free).read w =
      if w < wMax ∧ y.read w ≠ x.read w then free w else x.read w := by
  unfold Slot.abandoned
  show Memory.read _ w = _
  rw [Memory.read_fill]
  by_cases h : w < wMax <;> by_cases h' : y.read w = x.read w <;> simp [h, h'] <;> rfl

theorem storageLegal_abandoned {x y : Slot} {wMax : Nat} {free : Nat → Word}
    (h : x.storageLegal wMax) : (x.abandoned y wMax free).storageLegal wMax :=
  ⟨Memory.wf_fill _ _ h.1, Memory.below_fill _ _ h.2 (Nat.le_refl _)⟩

end Sys2Proof.Machine
end

