-- ==== Sys2Proof/Machine/Assembler.lean ====
section
/-! DEFINITION. Reading assembler text (spec/30_encoding.md R84, R85). What R84 does not say of the
spelling (blanks, `#` inside a quoted text, escapes) is log entry 13. -/

namespace Sys2Proof.Machine

/-- The double quote. -/
def quoteChar : Char := Char.ofNat 34

def isBlank (c : Char) : Bool := c == ' ' || c == '\t' || c == '\r'

/-- The pieces between separators; with `inText`, a separator inside quotes separates nothing. -/
def splitAtChar (sep : Char) (protect : Bool) : Bool → List Char → List (List Char)
  | _, [] => [[]]
  | inText, c :: cs =>
    if c == sep && !inText then [] :: splitAtChar sep protect inText cs
    else
      match splitAtChar sep protect (if protect && c == quoteChar then !inText else inText) cs with
      | [] => [[c]]
      | w :: ws => (c :: w) :: ws

/-- A line without its comment: `#` starts a comment to the end of the line, but not inside a quoted
text. -/
def stripComment : Bool → List Char → List Char
  | _, [] => []
  | inText, c :: cs =>
    if c == '#' && !inText then []
    else c :: stripComment (if c == quoteChar then !inText else inText) cs

def trimBlanks (cs : List Char) : List Char :=
  ((cs.dropWhile isBlank).reverse.dropWhile isBlank).reverse

/-- The value of a digit. -/
def digitValue (c : Char) : Option Nat :=
  if '0' ≤ c ∧ c ≤ '9' then some (c.toNat - '0'.toNat)
  else if 'a' ≤ c ∧ c ≤ 'f' then some (c.toNat - 'a'.toNat + 10)
  else if 'A' ≤ c ∧ c ≤ 'F' then some (c.toNat - 'A'.toNat + 10)
  else none

/-- The number that digits of a base write, most significant first. -/
def readDigitsFrom (base : Nat) : Nat → List Char → Option Nat
  | n, [] => some n
  | n, c :: cs =>
    match digitValue c with
    | some d => if d < base then readDigitsFrom base (n * base + d) cs else none
    | none => none

/-- At least one digit. -/
def readDigits (base : Nat) (cs : List Char) : Option Nat :=
  if cs.isEmpty then none else readDigitsFrom base 0 cs

/-- A number: decimal, or hexadecimal with a `0x` prefix (R84). -/
def readNat : List Char → Option Nat
  | '0' :: 'x' :: ds => readDigits 16 ds
  | ds => readDigits 10 ds

/-- A number that may have a leading `-` (R84's bit count, R85's integer). -/
def readInt : List Char → Option Int
  | '-' :: ds => (readDigits 10 ds).map (fun n => -(n : Int))
  | ds => (readNat ds).map (fun n => (n : Int))

/-- A slot, `s0` to `s15` (R84). -/
def readSlot : List Char → Option Nat
  | 's' :: ds => readDigits 10 ds
  | _ => none

/-- A quoted text (R85). -/
def readText : List Char → Option (List Char)
  | c :: rest =>
    if c == quoteChar && rest.getLast? == some quoteChar && !rest.dropLast.contains quoteChar then
      some rest.dropLast
    else none
  | [] => none

/-! ## Operand lists -/

def operands0 (l : AsmLine) : List (List Char) → Option AsmLine
  | [] => some l
  | _ => none

def operands1 {α : Type} (rd : List Char → Option α) (f : α → AsmLine) :
    List (List Char) → Option AsmLine
  | [x] => (rd x).map f
  | _ => none

def operands2 {α β : Type} (rd : List Char → Option α) (rd' : List Char → Option β)
    (f : α → β → AsmLine) : List (List Char) → Option AsmLine
  | [x, y] => (rd x).bind fun a => (rd' y).map fun b => f a b
  | _ => none

def operands3 {α β γ : Type} (rd : List Char → Option α) (rd' : List Char → Option β)
    (rd'' : List Char → Option γ) (f : α → β → γ → AsmLine) : List (List Char) → Option AsmLine
  | [x, y, z] => (rd x).bind fun a => (rd' y).bind fun b => (rd'' z).map fun c => f a b c
  | _ => none

/-- The mnemonics of R84 and R85, each with the reading of its operands. -/
def asmForms : List (List Char × (List (List Char) → Option AsmLine)) :=
  [ (['N', 'O', 'P'], operands0 .nop),
    (['H', 'I', 'N', 'I', 'T'], operands0 .hinit),
    (['H', 'U', 'N', 'I', 'T'], operands1 readNat .hunit),
    (['H', 'L', 'O', 'A', 'D'], operands1 readNat .hload),
    (['H', 'R', 'E', 'A', 'D'], operands0 .hread),
    (['R', 'E', 'M', 'I', 'X'], operands0 .remix),
    (['I', 'N', 'D', 'E', 'X'], operands2 readSlot readNat .index),
    (['C', 'O', 'N', 'F', 'I', 'G'], operands3 readSlot readInt readNat .config) ] ++
  [ (['A', 'D', 'D'], operands1 readSlot .add),
    (['T', 'E', 'S', 'T'], operands1 readSlot .test),
    (['R', 'D', 'W', 'O', 'R', 'D'], operands2 readSlot readNat .rdword),
    (['R', 'D', 'M'], operands1 readSlot .rdm),
    (['R', 'D', 'K'], operands1 readSlot .rdk),
    (['U', 'N', 'I', 'O', 'N'], operands3 readSlot readSlot readSlot .union),
    (['I', 'N', 'T', 'E', 'R', 'S', 'E', 'C', 'T'],
      operands3 readSlot readSlot readSlot .intersect) ] ++
  [ (['H', 'S', 'T', 'R'], operands1 readText .hstr),
    (['H', 'N', 'U', 'M'], operands1 readInt .hnum),
    (['A', 'D', 'D', 'S', 'T', 'R'], operands2 readSlot readText .addstr),
    (['T', 'E', 'S', 'T', 'S', 'T', 'R'], operands2 readSlot readText .teststr),
    (['A', 'D', 'D', 'N', 'U', 'M'], operands2 readSlot readInt .addnum),
    (['T', 'E', 'S', 'T', 'N', 'U', 'M'], operands2 readSlot readInt .testnum) ]

/-- A line that holds a command: its mnemonic, then its operands separated by commas (R84). -/
def readCommand (line : List Char) : Option AsmLine :=
  let name := line.takeWhile (fun c => !isBlank c)
  let rest := trimBlanks (line.dropWhile (fun c => !isBlank c))
  let ops := if rest.isEmpty then [] else (splitAtChar ',' true false rest).map trimBlanks
  match asmForms.find? (fun f => f.1 == name) with
  | some f => f.2 ops
  | none => none

/-- The commands of one line of text: none for an assembly error, no commands for a line that holds
only blanks and a comment. -/
def assembleLine (line : List Char) : Option (List Command) :=
  let body := trimBlanks (stripComment false line)
  if body.isEmpty then some [] else (readCommand body).bind assemble

/-- A text, one command a line; the assembler emits nothing for a line in error (R84). -/
def assembleText (text : List Char) : List Command :=
  (splitAtChar '\n' false false text).flatMap (fun l => (assembleLine l).getD [])

end Sys2Proof.Machine
end

