-- ==== Sys2Proof/Tests/Slice0.lean ====
section
/-! SUPPORT. Tests: decoding of words written out from spec/30_encoding.md, the checks of WellFormed,
one-step tests whose expected values are spec/95_test_vectors.md's (named by their ids), and for each
statement with hypotheses a state and operands that meet them. -/

namespace Sys2Proof.Tests

open Sys2Proof Sys2Proof.Machine

/-! ## Helpers -/

/-- What the host and a test see of an answer: `STATUS`, `RESULT`, `ACC`, in the order of the programs
of 95_test_vectors.md. -/
def seen : Answer → Option (Word × Word × Word)
  | .next t => some (t.status, t.result, t.acc)
  | .fault _ | .refused _ => none

/-- The slot of number `n` in an answer. -/
def slotIn (n : SlotNo) : Answer → Option Slot
  | .next t => some (t.slot n)
  | .fault _ | .refused _ => none

/-- The state after reset with an accumulator and the first slots given. -/
def given (acc : Word) (slots : List Slot) : State :=
  { State.reset with acc := acc, slots := slots ++ State.reset.slots.drop slots.length }

/-- The filter of ST-7: 1024 bits, `k = 5`, holding "Bess". -/
def bess : Slot :=
  ⟨1024#32, 5#16, [(9, 0x00000004#32), (18, 0x10000000#32), (21, 0x00004000#32),
    (28, 0x00400000#32), (31, 0x00000100#32)]⟩

/-- The filter of 95_test_vectors.md 2.5, slot 1: 1024 bits, `k = 5`, holding "Jane". -/
def jane : Slot :=
  ⟨1024#32, 5#16, [(12, 0x00020000#32), (14, 0x00000400#32), (16, 0x00000008#32),
    (17, 0x10000000#32), (19, 0x00200000#32)]⟩

/-- `ACC` for "Bess" (H-12). -/
def bessKey : Word := 0x005F1AAE#32

/-- Slots 0 and 1 hold "Bess" and "Jane"; slots 2 and 3 hold no filter; `ACC` is the key "Bess". -/
def two : State := given bessKey [bess, jane]

/-! ## Decoding: one word of each row, written bit by bit from R73 to R80 -/

theorem test_decode_nop : decode ⟨0b00000000000000000000000000000000#32, 0#32⟩ = .ok .nop := rfl
theorem test_decode_hinit : decode ⟨0b00000001000000000000000000000000#32, 7#32⟩ = .ok .hinit := rfl
theorem test_decode_hunit :
    decode ⟨0b00000010000000000010000010101100#32, 0#32⟩ = .ok (.hunit 0x20AC#16) := rfl
theorem test_decode_hload :
    decode ⟨0b00000011000000000000000000000000#32, 0xDEADBEEF#32⟩ = .ok (.hload 0xDEADBEEF#32) := rfl
theorem test_decode_hread : decode ⟨0b00000100000000000000000000000000#32, 0#32⟩ = .ok .hread := rfl
theorem test_decode_remix : decode ⟨0b00001000000000000000000000000000#32, 0#32⟩ = .ok .remix := rfl
theorem test_decode_index :
    decode ⟨0b00010000000100000000000000001001#32, 0#32⟩ = .ok (.index 1#4 9#16) := rfl
theorem test_decode_config :
    decode ⟨0b00100000000000000000000000000101#32, 0x000003E8#32⟩ =
      .ok (.config 0#4 5#16 1000#32) := rfl
theorem test_decode_add : decode ⟨0b00100001001100000000000000000000#32, 0#32⟩ = .ok (.add 3#4) := rfl
theorem test_decode_test :
    decode ⟨0b00100010001000000000000000000000#32, 0#32⟩ = .ok (.test 2#4) := rfl
theorem test_decode_rdword :
    decode ⟨0b00100011001000000000000000000000#32, 12#32⟩ = .ok (.rdword 2#4 12#32) := rfl
theorem test_decode_rdm : decode ⟨0b00100100000100000000000000000000#32, 0#32⟩ = .ok (.rdm 1#4) := rfl
theorem test_decode_rdk : decode ⟨0b00100101010100000000000000000000#32, 0#32⟩ = .ok (.rdk 5#4) := rfl
theorem test_decode_union :
    decode ⟨0b00110000010100010010000000000000#32, 0#32⟩ = .ok (.union 5#4 1#4 2#4) := rfl
theorem test_decode_intersect :
    decode ⟨0b00110001001100000001000000000000#32, 0#32⟩ = .ok (.intersect 3#4 0#4 1#4) := rfl

/-- H-20, ST-6, CB-10, CT-2, CT-3, CT-4. -/
theorem test_decode_refuses :
    decode ⟨0x02010041#32, 0#32⟩ = .error .reservedField ∧
      decode ⟨0x20010000#32, 0#32⟩ = .error .reservedField ∧
      decode ⟨0x30000001#32, 0#32⟩ = .error .reservedField ∧
      decode ⟨0xFF000000#32, 0#32⟩ = .error .unassignedOpcode ∧
      decode ⟨0x00000001#32, 0#32⟩ = .error .reservedField ∧
      decode ⟨0x01000001#32, 0#32⟩ = .error .reservedField := ⟨rfl, rfl, rfl, rfl, rfl, rfl⟩

/-- The table's numbering: with 32 bits given, `DATA` is 0; with 64, it is bits 63..32. -/
theorem test_table_word :
    decodeTableWord 32 0x20000005 = some (.config 0#4 5#16 0#32) ∧
      decodeTableWord 64 0x000003E820000005 = some (.config 0#4 5#16 1000#32) ∧
      decodeTableWord 32 0xFF000000 = none := ⟨rfl, rfl, rfl⟩

/-- `step` runs, as the first instruction after reset, the word that is placed (CT-2, H-7). -/
theorem test_fetch_word :
    seen (step (State.reset.withFetchWord 32 0x04000000)) =
        some (0x00000000#32, 0x811C9DC5#32, 0x811C9DC5#32) ∧
      seen (step (State.reset.withFetchWord 32 0xFF000000)) =
        some (0x00000103#32, 0x00000000#32, 0x811C9DC5#32) := ⟨rfl, rfl⟩

/-! ## WellFormed: each check refuses an operand one too large or too small (R84) -/

theorem test_wf_hunit : (AsmLine.hunit 65535).wellFormed = true ∧ assemble (.hunit 65536) = none := by
  decide
theorem test_wf_hload :
    (AsmLine.hload 4294967295).wellFormed = true ∧ assemble (.hload 4294967296) = none := by decide
theorem test_wf_index :
    (AsmLine.index 15 65535).wellFormed = true ∧ assemble (.index 16 0) = none ∧
      assemble (.index 0 65536) = none := by decide
theorem test_wf_config :
    (AsmLine.config 15 2147483647 65535).wellFormed = true ∧
      (AsmLine.config 0 (-2147483648) 0).wellFormed = true ∧
      assemble (.config 16 1 1) = none ∧ assemble (.config 0 2147483648 1) = none ∧
      assemble (.config 0 (-2147483649) 1) = none ∧ assemble (.config 0 1 65536) = none := by decide
theorem test_wf_slot :
    (AsmLine.add 15).wellFormed = true ∧ assemble (.add 16) = none ∧ assemble (.test 16) = none ∧
      assemble (.rdm 16) = none ∧ assemble (.rdk 16) = none := by decide
theorem test_wf_rdword : assemble (.rdword 16 0) = none ∧ assemble (.rdword 0 4294967296) = none := by
  decide
theorem test_wf_combine :
    (AsmLine.union 15 15 15).wellFormed = true ∧ assemble (.union 16 0 0) = none ∧
      assemble (.union 0 16 0) = none ∧ assemble (.union 0 0 16) = none ∧
      assemble (.intersect 16 0 0) = none ∧ assemble (.intersect 0 16 0) = none ∧
      assemble (.intersect 0 0 16) = none := by decide
theorem test_wf_pseudo :
    assemble (.addstr 16 []) = none ∧ assemble (.teststr 16 []) = none ∧
      assemble (.addnum 16 0) = none ∧ assemble (.testnum 16 0) = none := by decide

/-! ## The assembler -/

/-- R84's example, with a comment. -/
theorem test_assemble_config :
    assembleLine ['C', 'O', 'N', 'F', 'I', 'G', ' ', 's', '0', ',', ' ', '1', '0', '0', '0', ',', ' ',
      '5', ' ', '#', 'x'] = some [⟨0x20000005#32, 0x000003E8#32⟩] := by decide

/-- R85's example. -/
theorem test_assemble_teststr :
    assembleLine (['T', 'E', 'S', 'T', 'S', 'T', 'R', ' ', 's', '0', ',', ' ', quoteChar, 'B', 'e', 's',
      's'] ++ [quoteChar]) =
      some [⟨0x01000000#32, 0#32⟩, ⟨0x02000042#32, 0#32⟩, ⟨0x02000065#32, 0#32⟩,
        ⟨0x02000073#32, 0#32⟩, ⟨0x02000073#32, 0#32⟩, ⟨0x22000000#32, 0#32⟩] := by decide

/-- A hexadecimal number, and a slot that does not fit. -/
theorem test_assemble_hex :
    assembleLine ['H', 'U', 'N', 'I', 'T', ' ', '0', 'x', '4', '2'] = some [⟨0x02000042#32, 0#32⟩] ∧
      assembleLine ['A', 'D', 'D', ' ', 's', '1', '6'] = none := by decide

/-- H-9's text is two surrogates, high first; D5's form of an integer. -/
theorem test_utf16 :
    utf16 [Char.ofNat 0x1F600] = [0xD83D#16, 0xDE00#16] ∧ utf16 [Char.ofNat 0x20AC] = [0x20AC#16] ∧
      canonicalInt (-10) = ['-', '1', '0'] ∧ canonicalInt 0 = ['0'] := by decide

/-! ## Functions: H-3, H-9, RX-9, IG-5, ST-1 -/

theorem test_fnvMul : fnvMul 0xFFFFFFFF#32 = 0xFEFFFE6D#32 ∧ fnvMul 0xDEADBEEF#32 = 0x7A83923D#32 := by
  decide
theorem test_hash32 :
    hash32 [0xD83D#16, 0xDE00#16] = 0xCB31C4B8#32 ∧ hash32 [0x20AC#16] = 0xA93E2C4B#32 := by decide
theorem test_mix : mix 1#32 = 0x00256B69#32 ∧ remix bessKey = 0xB554F53A#32 := by decide
theorem test_indices :
    indices bessKey 96 4 = [46, 8, 66, 28] ∧ indices bessKey 1024 5 = [686, 1000, 290, 604, 918] := by
  decide
theorem test_roundUp32 : [1, 20, 32, 33, 129, 1000, 1024].map roundUp32 =
    [32, 32, 32, 64, 160, 1024, 1024] := by decide

/-! ## One step of each instruction -/

/-- CT-5. -/
theorem test_nop :
    seen (exec .nop { State.reset with status := 0x00000103#32 }) =
      some (0x00000100#32, 0#32, 0x811C9DC5#32) := rfl
/-- H-21, with a T of 1 kept. -/
theorem test_hinit :
    seen (runCommand ⟨0x01000000#32, 0xFFFFFFFF#32⟩ { given 5#32 [] with status := 0x10#32 }) =
      some (0x00000010#32, 0#32, 0x811C9DC5#32) := rfl
/-- H-10. -/
theorem test_hunit :
    seen (exec (.hunit 0x61#16) State.reset) = some (0#32, 0#32, 0xE40C292C#32) := rfl
/-- H-16. -/
theorem test_hunit_whole :
    seen (exec (.hunit 0xFFFF#16) State.reset) = some (0#32, 0#32, 0x79AEA14E#32) := rfl
/-- H-18. -/
theorem test_hload :
    seen (exec (.hload 0xDEADBEEF#32) State.reset) = some (0#32, 0#32, 0xDEADBEEF#32) := rfl
/-- RS-1. -/
theorem test_hread :
    seen (exec .hread State.reset) = some (0#32, 0x811C9DC5#32, 0x811C9DC5#32) := rfl
/-- RX-2. -/
theorem test_remix :
    seen (exec .remix (given 1#32 [])) = some (0#32, 0x60B57B88#32, 1#32) := rfl
/-- RX-5. -/
theorem test_remix_msb :
    seen (exec .remix (given 0x80000000#32 [])) = some (0#32, 0xA908D480#32, 0x80000000#32) := rfl
/-- IG-10. -/
theorem test_index : seen (exec (.index 0#4 4#16) two) = some (0#32, 918#32, bessKey) := by decide
/-- IG-5: the sum is not wrapped at 32 bits. -/
theorem test_index_exact :
    seen (exec (.index 0#4 2#16) (given bessKey [⟨96#32, 4#16, []⟩])) =
      some (0#32, 66#32, bessKey) := by decide
/-- ST-1 (33 bits), ST-18: the old words go. -/
theorem test_config :
    slotIn 0#4 (exec (.config 0#4 1#16 33#32) (given 0#32 [⟨32#32, 2#16, [(0, 9#32), (1, 8#32)]⟩])) =
      some ⟨64#32, 1#16, []⟩ := by decide
/-- ST-2. -/
theorem test_config_capacity :
    seen (exec (.config 0#4 5#16 1025#32) State.reset) = some (0x106#32, 0#32, 0x811C9DC5#32) := by
  decide
/-- ST-7. -/
theorem test_add : slotIn 0#4 (exec (.add 0#4) (given bessKey [⟨1024#32, 5#16, []⟩])) = some bess := by
  decide
/-- ST-9: repeated positions. -/
theorem test_add_repeats :
    slotIn 0#4 (exec (.add 0#4) (given 0x1A47E90B#32 [⟨32#32, 10#16, []⟩])) =
      some ⟨32#32, 10#16, [(0, 0x88888888#32)]⟩ := by decide
/-- ST-11, the member. -/
theorem test_test_member : seen (exec (.test 0#4) two) = some (0x10#32, 1#32, bessKey) := by decide
/-- ST-11, the other key: T goes back to 0. -/
theorem test_test_other :
    seen (exec (.test 1#4) { two with status := 0x10#32, result := 1#32 }) =
      some (0#32, 0#32, bessKey) := by decide
/-- P3 and ST-7. -/
theorem test_rdword : seen (exec (.rdword 0#4 31#32) two) = some (0#32, 0x100#32, bessKey) := by decide
/-- ST-13. -/
theorem test_rdword_range :
    seen (exec (.rdword 0#4 2#32) (given 0#32 [⟨64#32, 1#16, []⟩])) =
      some (0x107#32, 0#32, 0#32) := by decide
/-- R157's example, and ST-16. -/
theorem test_rdm :
    seen (exec (.rdm 0#4) two) = some (0#32, 1024#32, bessKey) ∧
      seen (exec (.rdm 2#4) two) = some (0#32, 0#32, bessKey) := by decide
/-- R158's example, and ST-17. -/
theorem test_rdk :
    seen (exec (.rdk 0#4) two) = some (0#32, 5#32, bessKey) ∧
      seen (exec (.rdk 5#4) two) = some (0x104#32, 0#32, bessKey) := by decide
/-- CB-1. -/
theorem test_union :
    slotIn 2#4 (exec (.union 2#4 0#4 1#4) two) =
      some ⟨1024#32, 5#16, [(9, 0x00000004#32), (12, 0x00020000#32), (14, 0x00000400#32),
        (16, 0x00000008#32), (17, 0x10000000#32), (18, 0x10000000#32), (19, 0x00200000#32),
        (21, 0x00004000#32), (28, 0x00400000#32), (31, 0x00000100#32)]⟩ := by decide +kernel
/-- R182: the first source's `k` (CB-7). -/
theorem test_union_hash_count :
    slotIn 2#4 (exec (.union 2#4 1#4 0#4)
      (given 0#32 [⟨32#32, 5#16, [(0, 1#32)]⟩, ⟨32#32, 3#16, [(0, 6#32)]⟩])) =
        some ⟨32#32, 3#16, [(0, 7#32)]⟩ := by decide
/-- CB-2. -/
theorem test_intersect :
    slotIn 3#4 (exec (.intersect 3#4 0#4 1#4) two) = some ⟨1024#32, 5#16, []⟩ := by decide +kernel
/-- CB-4's error, for INTERSECT. -/
theorem test_intersect_not_configured :
    seen (exec (.intersect 2#4 0#4 3#4) two) = some (0x105#32, 0#32, bessKey) := by decide

/-! ## Errors: IG-12, IG-13, ST-3, ST-4, ST-5, CB-3, CT-6 -/

theorem test_errors :
    seen (exec (.index 1#4 0#16) State.reset) = some (0x105#32, 0#32, 0x811C9DC5#32) ∧
      seen (exec (.index 5#4 0#16) State.reset) = some (0x104#32, 0#32, 0x811C9DC5#32) ∧
      seen (exec (.config 0#4 5#16 0x80000000#32) State.reset) =
        some (0x101#32, 0#32, 0x811C9DC5#32) ∧
      seen (exec (.config 0#4 0#16 1000#32) State.reset) = some (0x101#32, 0#32, 0x811C9DC5#32) ∧
      seen (exec (.config 15#4 0#16 0#32) State.reset) = some (0x104#32, 0#32, 0x811C9DC5#32) ∧
      seen (exec (.union 2#4 0#4 1#4) (given 0#32 [bess, ⟨64#32, 3#16, []⟩])) =
        some (0x102#32, 0#32, 0#32) := by decide

theorem test_error_keeps_t :
    seen (runCommand ⟨0xFF000000#32, 0#32⟩ { two with status := 0x10#32, result := 1#32 }) =
      some (0x113#32, 1#32, bessKey) := rfl

/-! ## The port, edge by edge, and reset -/

/-- A reset edge in the middle of an ADD: the registers are reset (R240). -/
theorem test_reset_edge :
    seen (edge ⟨true, true, 0#32, 0#32⟩
        { two with port := ⟨.executing ⟨0x21000000#32, 0#32⟩ 0, false, none, 1⟩ }) =
      some (0#32, 0#32, 0x811C9DC5#32) := rfl

/-- An offer that is withdrawn without `rst` is refused (R246). -/
theorem test_broken_hold :
    edge quietInputs { State.reset with port := ⟨.recovering 0, true, some ⟨0#32, 0#32⟩, 1⟩ } =
      .refused .offerNotHeld := rfl

/-! ## Witnesses: for each statement with hypotheses, a state and operands that meet them

Where a statement has several clauses, there is one conjunct for each, at a value where clauses meet. -/

/-- Two slots of 64 bits that differ in `k`, the second with bit 0 set; slot 2 has 32 bits and slot 3
holds no filter; `ACC` is 0, a key whose positions are all 0. -/
def small : State :=
  given 0#32 [⟨64#32, 3#16, [(0, 8#32)]⟩, ⟨64#32, 4#16, [(0, 7#32)]⟩, ⟨32#32, 1#16, []⟩]

/-- Slots 0 and 1 agree in `m` and `k`, and both hold the key 0. -/
def pair : State := given 0#32 [⟨64#32, 3#16, [(0, 9#32)]⟩, ⟨64#32, 3#16, [(0, 7#32), (1, 5#32)]⟩]

/-- An ADD in progress, one edge before the completing one. -/
def running : State :=
  { small with port := ⟨.executing ⟨0x21000000#32, 0#32⟩ 1, false, some ⟨0#32, 0#32⟩, 1⟩ }

theorem test_states_legal : small.Inv ∧ pair.Inv ∧ running.Inv ∧ two.Inv :=
  ⟨by decide, by decide, by decide, by decide⟩

theorem test_witness_DecodeAgreesWithOpcodeMap :
    (∃ r ∈ opcodeMap, ∃ r' ∈ opcodeMap, ∃ w : Word,
      r.matchesWord w = true ∧ r'.matchesWord w = true) ∧
      ∀ r ∈ opcodeMap, r.matchesWord 0xFF000000#32 = false :=
  ⟨⟨⟨.nop, 0x00000000#32, 0xFFFFFFFF#32⟩, by decide, ⟨.nop, 0x00000000#32, 0xFFFFFFFF#32⟩, by decide,
    0#32, by decide⟩, by decide⟩

theorem test_witness_EncodeReproducesDecodedWord :
    ∃ i, decode ⟨0x23F00000#32, 0xFFFFFFFF#32⟩ = .ok i ∧ i.op.usesData = true := ⟨_, rfl, rfl⟩

/-- The last and the first unassigned opcode, and a row that ignores `DATA`. -/
theorem test_witness_IllegalCommandsAndIgnoredData :
    opOf ((0xFF000000#32).extractLsb' 24 8) = none ∧ opOf ((0x05000000#32).extractLsb' 24 8) = none ∧
      ∃ i, decode ⟨0x22F00000#32, 5#32⟩ = .ok i ∧ i.op.usesData = false :=
  ⟨rfl, rfl, _, rfl, rfl⟩

/-- For every row, a word with its opcode and one reserved bit set, the highest or the lowest. -/
theorem test_witness_ReservedFieldRaises :
    (0x00800000#32).extractLsb' 24 8 = 0x00#8 ∧ (0x00800000#32).extractLsb' 0 24 ≠ 0#24 ∧
    (0x01000001#32).extractLsb' 24 8 = 0x01#8 ∧ (0x01000001#32).extractLsb' 0 24 ≠ 0#24 ∧
    (0x02010041#32).extractLsb' 24 8 = 0x02#8 ∧ (0x02010041#32).extractLsb' 16 8 ≠ 0#8 ∧
    (0x03800000#32).extractLsb' 24 8 = 0x03#8 ∧ (0x03800000#32).extractLsb' 0 24 ≠ 0#24 ∧
    (0x04000001#32).extractLsb' 24 8 = 0x04#8 ∧ (0x04000001#32).extractLsb' 0 24 ≠ 0#24 ∧
    (0x08800000#32).extractLsb' 24 8 = 0x08#8 ∧ (0x08800000#32).extractLsb' 0 24 ≠ 0#24 ∧
    (0x10010000#32).extractLsb' 24 8 = 0x10#8 ∧ (0x10010000#32).extractLsb' 16 4 ≠ 0#4 ∧
    (0x20080000#32).extractLsb' 24 8 = 0x20#8 ∧ (0x20080000#32).extractLsb' 16 4 ≠ 0#4 ∧
    (0x21080000#32).extractLsb' 24 8 = 0x21#8 ∧ (0x21080000#32).extractLsb' 0 20 ≠ 0#20 ∧
    (0x22000001#32).extractLsb' 24 8 = 0x22#8 ∧ (0x22000001#32).extractLsb' 0 20 ≠ 0#20 ∧
    (0x23080000#32).extractLsb' 24 8 = 0x23#8 ∧ (0x23080000#32).extractLsb' 0 20 ≠ 0#20 ∧
    (0x24000001#32).extractLsb' 24 8 = 0x24#8 ∧ (0x24000001#32).extractLsb' 0 20 ≠ 0#20 ∧
    (0x25080000#32).extractLsb' 24 8 = 0x25#8 ∧ (0x25080000#32).extractLsb' 0 20 ≠ 0#20 ∧
    (0x30000800#32).extractLsb' 24 8 = 0x30#8 ∧ (0x30000800#32).extractLsb' 0 12 ≠ 0#12 ∧
    (0x31000001#32).extractLsb' 24 8 = 0x31#8 ∧ (0x31000001#32).extractLsb' 0 12 ≠ 0#12 := by decide

theorem test_witness_StepRunsTheDecodedCommand :
    (∃ i t, decode ⟨0x04000000#32, 0#32⟩ = .ok i ∧
      exec i (State.accept { State.reset with stream := [] } ⟨0x04000000#32, 0#32⟩) = .next t ∧
      State.reset.port.phase.isExecuting = false) ∧
      ∃ e, decode ⟨0xFF000000#32, 0#32⟩ = .error e := ⟨⟨_, _, rfl, rfl, rfl⟩, _, rfl⟩

theorem test_witness_StepRestsOrResets :
    State.reset.port.phase.isExecuting = false ∧ State.reset.stream = [] ∧
      ({ small with stream := [.reset] } : State).port.phase.isExecuting = false ∧
      ({ small with stream := [.reset] } : State).stream = HostEvent.reset :: [] :=
  ⟨rfl, rfl, rfl, rfl⟩

/-- The largest operands that fit, and the smallest that do not. -/
theorem test_witness_AssembledCommandWords :
    assemble (.hload 4294967295) = some [⟨0x03000000#32, 0xFFFFFFFF#32⟩] ∧
      assemble (.rdword 15 4294967295) = some [⟨0x23F00000#32, 0xFFFFFFFF#32⟩] ∧
      assemble (.index 15 65535) = some [⟨0x10F0FFFF#32, 0#32⟩] ∧ assemble (.index 16 65535) = none ∧
      assemble (.config 1 (-1) 3) = some [⟨0x20100003#32, 0xFFFFFFFF#32⟩] := by decide

theorem test_witness_AssembledTextIsHashedAndTested :
    (2 : Nat) ≤ 15 ∧ 2 < small.slots.length ∧ (small.slot (BitVec.ofNat 4 2)).m ≠ 0#32 := by decide

theorem test_witness_StreamedKeyIsHashed :
    ∀ c ∈ [(⟨0x02000061#32, 0#32⟩ : Command), ⟨0xFF000000#32, 0#32⟩, ⟨0x21500000#32, 0#32⟩,
      ⟨0x02000062#32, 0#32⟩], decode c ≠ .ok .hinit ∧ ∀ v, decode c ≠ .ok (.hload v) := by
  simp [decode, opOf, Op.all, Op.code, opField, reservedZero, Op.format, Op.withOperands]

/-- Slot 4 does not exist, slot 3 does; slot 3 holds no filter; `i` is `K` and `K - 1`. -/
theorem test_witness_IndexReadsAPosition :
    small.slots.length ≤ (4#4).toNat ∧
      ((3#4).toNat < small.slots.length ∧ (small.slot 3#4).m = 0#32) ∧
      ((0#4).toNat < small.slots.length ∧ (small.slot 0#4).m ≠ 0#32 ∧
        (small.slot 0#4).k.toNat ≤ (3#16).toNat) ∧
      (0#4).toNat < small.slots.length ∧ (small.slot 0#4).m ≠ 0#32 ∧
        (2#16).toNat < (small.slot 0#4).k.toNat := by decide

theorem test_witness_Positions :
    0 < 1 ∧ (4 : Nat) < 5 ∧ (5 : Nat) ≤ 5 ∧ (65534 : Nat) ≤ 65534 ∧ (32 : Nat) ∣ 2 ^ 32 := by decide

/-- Slot 4; a bit count of 0, one of -2^31 and a `k` of 0; one bit above the capacity, and the capacity. -/
theorem test_witness_ConfigConstructsAFilter :
    small.slots.length ≤ (4#4).toNat ∧
      ((3#4).toNat < small.slots.length ∧ (0#32).toInt ≤ 0 ∧ (0x80000000#32).toInt ≤ 0) ∧
      ((1025#32).toInt > 0 ∧ 1#16 ≠ 0#16 ∧ LeastMultipleOf32 (1025#32).toInt 1056 ∧
        32 * small.wMax < 1056) ∧
      (1024#32).toInt > 0 ∧ LeastMultipleOf32 (1024#32).toInt 1024 ∧ 1024 ≤ 32 * small.wMax := by
  refine ⟨by decide, by decide, ⟨by decide, by decide, ⟨by decide, by decide, ?_⟩, by decide⟩, by decide,
    ⟨by decide, by decide, ?_⟩, by decide⟩
  · intro m' h1 h2
    have : (1025#32).toInt = 1025 := by decide
    omega
  · intro m' h1 h2
    have : (1024#32).toInt = 1024 := by decide
    omega

/-- For ADD and TEST: slot 4, slot 3 without a filter, slot 2. -/
theorem test_witness_AddAndTest :
    small.slots.length ≤ (4#4).toNat ∧
      ((3#4).toNat < small.slots.length ∧ (small.slot 3#4).m = 0#32) ∧
      (2#4).toNat < small.slots.length ∧ (small.slot 2#4).m ≠ 0#32 := by decide

theorem test_witness_AddsAccumulateKeyPatterns :
    (∃ t u, exec (.add 0#4) small = .next t ∧ exec (.add 0#4) t = .next u) ∧
      (0#4).toNat < small.slots.length ∧ (small.slot 0#4).m ≠ 0#32 :=
  ⟨⟨_, _, rfl, rfl⟩, by decide, by decide⟩

/-- Between the ADD and the TEST: an ADD to the slot, a CONFIG of another and an illegal command. -/
theorem test_witness_NoFalseNegatives :
    ∃ t u, exec (.add 0#4) small = .next t ∧ errOf t.status = 0#4 ∧
      (∀ c ∈ [encode (.add 0#4), encode (.config 1#4 1#16 5#32), (⟨0xFF000000#32, 0#32⟩ : Command)],
        ∀ i, decode c = .ok i → rebuildsSlot 0#4 i = false) ∧
      runCommands [encode (.add 0#4), encode (.config 1#4 1#16 5#32), ⟨0xFF000000#32, 0#32⟩] t =
        .next u ∧ u.acc = small.acc := by
  refine ⟨_, _, rfl, rfl, ?_, rfl, rfl⟩
  intro c hc i hi
  simp only [List.mem_cons, List.not_mem_nil, or_false] at hc
  rcases hc with rfl | rfl | rfl
  · cases (show decode (encode (.add 0#4)) = .ok (.add 0#4) from rfl).symm.trans hi; rfl
  · cases (show decode (encode (.config 1#4 1#16 5#32)) = .ok (.config 1#4 1#16 5#32) from rfl).symm.trans
      hi
    rfl
  · cases (show decode ⟨0xFF000000#32, 0#32⟩ = .error .unassignedOpcode from rfl).symm.trans hi

/-- The last word of slot 0 and the one after it. -/
theorem test_witness_RdwordReadsAStorageWord :
    small.slots.length ≤ (4#4).toNat ∧ (small.slot 3#4).m = 0#32 ∧
      ((small.slot 0#4).m ≠ 0#32 ∧ (small.slot 0#4).m.toNat / 32 ≤ (2#32).toNat) ∧
      (small.slot 0#4).m ≠ 0#32 ∧ (1#32).toNat < (small.slot 0#4).m.toNat / 32 ∧
      (0#4).toNat < small.slots.length := by decide

/-- For RDM and RDK: a slot that does not exist and the last that does. -/
theorem test_witness_RdmAndRdk :
    small.slots.length ≤ (4#4).toNat ∧ (3#4).toNat < small.slots.length := by decide

theorem test_witness_OnlyBuildersClearBits :
    ∃ t, runCommand ⟨0x21000000#32, 0#32⟩ small = .next t ∧
      (∀ i, decode ⟨0x21000000#32, 0#32⟩ = .ok i → rebuildsSlot 1#4 i = false) ∧
      decode ⟨0x21000000#32, 0#32⟩ ≠ .ok (.add 1#4) :=
  ⟨_, rfl, by
    intro i hi
    cases (show decode ⟨0x21000000#32, 0#32⟩ = .ok (.add 0#4) from rfl).symm.trans hi
    rfl, by
    rw [show decode ⟨0x21000000#32, 0#32⟩ = .ok (.add 0#4) from rfl]
    intro h
    injection h with h
    injection h with h
    exact absurd h (by decide)⟩

/-- For UNION and INTERSECT, the clauses in turn; the destination that succeeds holds no filter, or is a
source. -/
theorem test_witness_Combine :
    (small.slots.length ≤ (4#4).toNat) ∧
      ((3#4).toNat < small.slots.length ∧ (0#4).toNat < small.slots.length ∧
        (1#4).toNat < small.slots.length) ∧
      ((small.slot 3#4).m = 0#32) ∧
      ((small.slot 0#4).m ≠ 0#32 ∧ (small.slot 2#4).m ≠ 0#32 ∧ (small.slot 0#4).m ≠ (small.slot 2#4).m) ∧
      (small.slot 0#4).m ≠ 0#32 ∧ (small.slot 0#4).m = (small.slot 1#4).m := by decide

/-- `K[a] < K[b]`, with every position of the key set in `b`. -/
theorem test_witness_UnionOfDifferentHashCounts :
    small.Inv ∧ (3#4).toNat < small.slots.length ∧ (0#4).toNat < small.slots.length ∧
      (1#4).toNat < small.slots.length ∧ (small.slot 0#4).m ≠ 0#32 ∧
      (small.slot 0#4).m = (small.slot 1#4).m ∧
      (small.slot 0#4).k.toNat ≤ (small.slot 1#4).k.toNat ∧
      (small.slot 1#4).allSet ((small.slot 1#4).positions small.acc) = true := by decide

/-- For InPlaceCombineAgrees, UnionKeepsEveryMember and IntersectionTestIsAnd; the destination is a
source. -/
theorem test_witness_EqualFilters :
    pair.Inv ∧ (0#4).toNat < pair.slots.length ∧ (1#4).toNat < pair.slots.length ∧
      (pair.slot 0#4).m ≠ 0#32 ∧ (pair.slot 0#4).m = (pair.slot 1#4).m ∧
      (pair.slot 0#4).k = (pair.slot 1#4).k ∧
      (pair.slot 0#4).allSet ((pair.slot 0#4).positions pair.acc) = true := by decide

theorem test_witness_CommandsAreIdempotent :
    ∃ t u, (∀ v, Instr.add 0#4 ≠ .hunit v) ∧ pair.Inv ∧ exec (.add 0#4) pair = .next t ∧
      exec (.add 0#4) t = .next u := ⟨_, _, fun _ h => (by cases h), by decide, rfl, rfl⟩

theorem test_witness_RaiseChangesOnlyStatus :
    ∃ t, runCommand ⟨0x21300000#32, 0#32⟩ small = .next t ∧ errOf t.status ≠ 0#4 :=
  ⟨_, rfl, by decide⟩

/-- A command that succeeds, and a TEST that changes T. -/
theorem test_witness_SuccessKeepsStickyAndT :
    ∃ t, runCommand ⟨0x22100000#32, 0#32⟩ small = .next t ∧ errOf t.status = 0#4 ∧
      tOf t.status ≠ tOf small.status := ⟨_, rfl, by decide, by decide⟩

theorem test_witness_FirstApplicableErrorIsReported :
    ∃ e, decode ⟨0x05000000#32, 0#32⟩ = .error e := ⟨_, rfl⟩

theorem test_witness_StickyTellsWhetherAnyRaised :
    ∃ u, [(⟨0#32, 0#32⟩ : Command), ⟨0xFF000000#32, 0#32⟩] = [⟨0#32, 0#32⟩] ++ ⟨0xFF000000#32, 0#32⟩ :: [] ∧
      runCommands ([⟨0#32, 0#32⟩] ++ [⟨0xFF000000#32, 0#32⟩]) (State.resetOf Config.recommended) =
        .next u := ⟨_, rfl, rfl⟩

/-- Two states that differ in RESULT, STATUS, the port and the stream, for an instruction that reads ACC. -/
theorem test_witness_AccessSummaryHolds :
    ∃ t, exec (.test 1#4) small = .next t ∧ writesAcc (.test 1#4) = false ∧
      rebuildsSlot 1#4 (.test 1#4) = false ∧ Instr.test 1#4 ≠ .add 1#4 ∧
      ({ running with result := 9#32, status := 0x110#32 } : State).slots = small.slots ∧
      ({ running with result := 9#32, status := 0x110#32 } : State).wMax = small.wMax ∧
      (readsAcc (.test 1#4) = true → running.acc = small.acc) :=
  ⟨_, rfl, rfl, rfl, by decide, rfl, rfl, fun _ => rfl⟩

/-- From `running`, an ADD completes; from `small`, the block rests. -/
theorem test_witness_StepKeepsLegalStates :
    (∃ t, running.Inv ∧ step running = .next t) ∧ ∃ t, small.Inv ∧ step small = .next t :=
  ⟨⟨_, by decide, rfl⟩, _, by decide, rfl⟩

/-- A reset edge in the middle of a command, and an edge at which it runs on. -/
theorem test_witness_EdgeKeepsLegalStates :
    (∃ t, running.Inv ∧ edge ⟨true, false, 0#32, 0#32⟩ running = .next t) ∧
      ∃ t, running.Inv ∧ edge (offerInputs ⟨0#32, 0#32⟩) running = .next t :=
  ⟨⟨_, by decide, rfl⟩, _, by decide, rfl⟩

/-- The smallest and the largest sizes. -/
theorem test_witness_ResetIsLegal :
    ({ numSlots := 1, wMax := 1 } : Config).legal ∧ ({ numSlots := 16, wMax := 2 ^ 26 } : Config).legal := by
  decide

theorem test_witness_ResetEdgeFromAnyState :
    (PortInputs.mk true false 0#32 0#32).rst = true ∧ small.port.phase.isExecuting = false ∧
      ∃ c n u, running.port.phase = .executing c n ∧ runCommand c running = .next u ∧
        (u.slot 0#4).read 1 = (running.slot 0#4).read 1 := ⟨rfl, rfl, _, _, _, rfl, rfl, by decide⟩

/-- Two states that differ in word 5 of a slot of two words. -/
theorem test_witness_InvisibleWordsNeverMatter :
    (given 1#32 [⟨64#32, 3#16, [(0, 9#32), (5, 7#32)]⟩]).Inv ∧
      (given 1#32 [⟨64#32, 3#16, [(0, 9#32)]⟩]).Inv ∧
      (given 1#32 [⟨64#32, 3#16, [(0, 9#32), (5, 7#32)]⟩]).SameVisible
        (given 1#32 [⟨64#32, 3#16, [(0, 9#32)]⟩]) := by
  refine ⟨by decide, by decide, rfl, rfl, rfl, rfl, rfl, rfl, ?_⟩
  refine .cons ⟨rfl, rfl, ?_⟩ (.cons ⟨rfl, rfl, fun _ _ => rfl⟩ (.cons ⟨rfl, rfl, fun _ _ => rfl⟩
    (.cons ⟨rfl, rfl, fun _ _ => rfl⟩ .nil)))
  intro w hw
  have hw : w < 2 := hw
  interval_cases w <;> rfl

theorem test_witness_StorageBeforeResetIsUnobservable :
    ∃ t t', small.Inv ∧ pair.Inv ∧ small.slots.length = pair.slots.length ∧ small.wMax = pair.wMax ∧
      edge ⟨true, false, 0#32, 0#32⟩ small = .next t ∧ edge ⟨true, false, 0#32, 0#32⟩ pair = .next t' :=
  ⟨_, _, by decide, by decide, rfl, rfl, rfl, rfl⟩

/-- An offer that was made while the port recovered, and is held when it is idle; and three edges at
which the next offer is made and held. -/
theorem test_witness_PortRunsEachCommandToCompletion :
    offerHeld { small with port := ⟨.idle, false, some ⟨0#32, 0#32⟩, 0⟩ } (offerInputs ⟨0#32, 0#32⟩) =
        true ∧
      HoldsOffers none [quietInputs, offerInputs ⟨4#32, 0#32⟩, offerInputs ⟨4#32, 0#32⟩] ∧
      ∀ i ∈ [quietInputs, offerInputs ⟨4#32, 0#32⟩, offerInputs ⟨4#32, 0#32⟩], i.rst = false :=
  ⟨rfl, ⟨rfl, trivial⟩, by decide⟩

/-- An edge that accepts, and an edge at which the command in progress runs on. -/
theorem test_witness_AcceptanceNeedsValidAndReady :
    (∃ t c n, edge (offerInputs ⟨0#32, 0#32⟩) small = .next t ∧ t.port.phase = .executing c n) ∧
      ∃ t c n, edge (offerInputs ⟨0#32, 0#32⟩) running = .next t ∧ t.port.phase = .executing c n :=
  ⟨⟨_, _, _, rfl, rfl⟩, _, _, _, rfl, rfl⟩

/-- An edge at which nothing completes. -/
theorem test_witness_StateChangesOnlyAtCompletion :
    ∃ t, edge (offerInputs ⟨0#32, 0#32⟩) running = .next t ∧
      ∀ c, running.port.phase ≠ .executing c 0 := ⟨_, rfl, by intro c h; injection h with _ h; cases h⟩

/-- A broken hold. -/
theorem test_witness_OnlyABrokenHoldIsRefused :
    edge quietInputs running = .refused .offerNotHeld ∧ running.port.offered = some ⟨0#32, 0#32⟩ ∧
      quietInputs.offer ≠ some ⟨0#32, 0#32⟩ := ⟨rfl, rfl, by decide⟩

end Sys2Proof.Tests
end

/-! ## The outcome of an instruction (R31, R216)

It is the reported error, or what its columns of the access summary say. -/

namespace Sys2Proof.Machine

/-- R31's column ACC: what the accumulator `acc` becomes when the instruction succeeds. -/
def accAfter (i : Instr) (acc : Word) : Word :=
  match i with
  | .hinit => fnvOffset
  | .hunit u => fnvStep acc u
  | .hload v => v
  | _ => acc

/-- TEST's outcome in `s` (R154). -/
def testOutcome (n : SlotNo) (s : State) : Bool := (s.slot n).allSet ((s.slot n).positions s.acc)

/-- R31's column RESULT. -/
def resultAfter (i : Instr) (s : State) : Word :=
  match i with
  | .hread => s.acc
  | .remix => remix s.acc
  | .index n imm =>
    BitVec.ofNat 32 (position s.acc (remix s.acc) (s.slot n).bitCount (indexNumber imm))
  | .test n => (BitVec.ofBool (testOutcome n s)).setWidth 32
  | .rdword n w => (s.slot n).read (wordIndex w)
  | .rdm n => (s.slot n).m
  | .rdk n => (s.slot n).k.setWidth 32
  | _ => s.result

/-- R31's column STATUS.T. -/
def tAfter (i : Instr) (s : State) : Bool :=
  match i with
  | .test n => testOutcome n s
  | _ => tOf s.status

/-- The filter that UNION and INTERSECT build in slot `d` (R180, R181). -/
def combined (f : Word → Word → Word) (d a b : SlotNo) (s : State) : Slot :=
  (s.slot d).build (s.slot a).bitCount (s.slot a).k
    (fun w => f ((s.slot a).read w) ((s.slot b).read w))

/-- R31's columns of the slots. -/
def slotsAfter (i : Instr) (s : State) : List Slot :=
  match i with
  | .config n k data =>
    (s.setSlot n
      ((s.slot n).build (roundUp32 (requestedBits data).toNat) k (fun _ => 0#32))).slots
  | .add n => (s.setSlot n ((s.slot n).setBits ((s.slot n).positions s.acc))).slots
  | .union d a b => (s.setSlot d (combined (fun x y => x ||| y) d a b s)).slots
  | .intersect d a b => (s.setSlot d (combined (fun x y => x &&& y) d a b s)).slots
  | _ => s.slots

/-- The state that an instruction that succeeds in `s` answers. -/
def State.after (i : Instr) (s : State) : State :=
  { s with
    acc := accAfter i s.acc
    result := resultAfter i s
    status := packStatus ErrorCode.none.code (tAfter i s) (stickyOf s.status)
    slots := slotsAfter i s }

/-- The state that `raise e` answers (R212). -/
def State.raised (e : ErrorCode) (s : State) : State :=
  { s with status := statusRaised e s.status }

/-! ### The first error whose cause applies (R216) -/

/-- The search of R216 through a list of causes. -/
def firstError (causes : List (ErrorCode × Bool)) : ErrorCode :=
  (errorPriority.find? fun e => causes.contains (e, true)).getD .none

theorem reportedError_eq (i : Instr) (s : State) : reportedError i s = firstError (causes s i) := rfl

theorem firstError_nil : firstError [] = .none := by decide

/-- Where the causes are listed by priority, the first that applies decides. -/
theorem firstError_cons {e : ErrorCode} {causes : List (ErrorCode × Bool)} (b : Bool)
    (h : (e :: causes.map Prod.fst).Sublist errorPriority) :
    firstError ((e, b) :: causes) = if b then e else firstError causes := by
  cases b with
  | false => simp [firstError]
  | true =>
    obtain ⟨r₁, r₂, hr, he, hsub⟩ := List.cons_sublist_iff.1 h
    obtain ⟨before, mid, rfl⟩ := List.append_of_mem he
    have hnd : (before ++ e :: mid ++ r₂).Nodup := hr ▸ (by decide : errorPriority.Nodup)
    have hbefore : ∀ x ∈ before, x ≠ e ∧ x ∉ r₂ := by
      grind
    have : errorPriority.find? (fun x => ((e, true) :: causes).contains (x, true)) = some e := by
      rw [List.find?_eq_some_iff_append]
      refine ⟨by simp, before, mid ++ r₂, by simp [hr], fun x hx => ?_⟩
      have hc : (x, true) ∉ causes := fun hm =>
        (hbefore x hx).2 (hsub.subset (List.mem_map_of_mem (f := Prod.fst) hm))
      simp [(hbefore x hx).1, hc]
    rw [firstError, this]; rfl

/-! ### What an instruction answers -/

/-- The answer is `raise e`, or, where `e` is NONE, the state `t`. -/
def Answers (s t : State) (a : Answer) (e : ErrorCode) : Prop :=
  a = .next (if e = .none then t else s.raised e)

theorem answers_next (s t : State) : Answers s t (.next t) (firstError []) := by
  rw [firstError_nil]; rfl

/-- A guard that raises the error of the first of the causes. -/
theorem answers_guard {c : Prop} [Decidable c] {s t : State} {a : Answer} {e : ErrorCode}
    {b : Bool} {causes : List (ErrorCode × Bool)} (hcb : c ↔ b = true)
    (hord : (e :: causes.map Prod.fst).isSublist errorPriority = true)
    (ha : Answers s t a (firstError causes)) :
    Answers s t (if c then s.raise e else a) (firstError ((e, b) :: causes)) := by
  have h := List.isSublist_iff_sublist.1 hord
  rw [firstError_cons b h]
  by_cases hc : c
  · have he : e ≠ .none := by
      rintro rfl
      exact absurd (h.subset List.mem_cons_self) (by decide)
    rw [if_pos hc, if_pos (hcb.1 hc), Answers, if_neg he]; rfl
  · rwa [if_neg hc, if_neg (mt hcb.2 hc)]

theorem not_configured_iff (x : Slot) : (!x.configured) = true ↔ (x.m == 0#32) = true := by
  simp [Slot.configured]

/-- UNION and INTERSECT raise the first error of their three causes, or else build the filter. -/
theorem combine_answers (f : Word → Word → Word) (d a b : SlotNo) (s : State) :
    Answers s { s.setSlot d (combined f d a b s) with status := statusOk s.status }
      (combine f d a b s) (firstError (causes s (.union d a b))) := by
  refine answers_guard ?_ rfl (answers_guard ?_ rfl
    (answers_guard ?_ rfl (answers_next _ _)))
  · exact Iff.rfl
  · simp [Slot.configured]
  · simp

/-- Every instruction raises the error that R216 reports, or else answers the state of its columns. -/
theorem exec_answers (i : Instr) (s : State) :
    Answers s (s.after i) (exec i s) (reportedError i s) := by
  rw [reportedError_eq]
  cases i with
  | nop => exact answers_next _ _
  | hinit => exact answers_next _ _
  | hunit u => exact answers_next _ _
  | hload v => exact answers_next _ _
  | hread => exact answers_next _ _
  | remix => exact answers_next _ _
  | index n imm =>
    exact answers_guard Iff.rfl rfl (answers_guard (not_configured_iff _) rfl
      (answers_guard decide_eq_true_iff.symm rfl (answers_next _ _)))
  | config n k data =>
    exact answers_guard Iff.rfl rfl (answers_guard (by simp [requestedBits]) rfl
      (answers_guard decide_eq_true_iff.symm rfl (answers_next _ _)))
  | add n =>
    exact answers_guard Iff.rfl rfl (answers_guard (not_configured_iff _) rfl
      (answers_next _ _))
  | test n =>
    exact answers_guard Iff.rfl rfl (answers_guard (not_configured_iff _) rfl
      (answers_next _ _))
  | rdword n w =>
    exact answers_guard Iff.rfl rfl (answers_guard (not_configured_iff _) rfl
      (answers_guard decide_eq_true_iff.symm rfl (answers_next _ _)))
  | rdm n => exact answers_guard Iff.rfl rfl (answers_next _ _)
  | rdk n => exact answers_guard Iff.rfl rfl (answers_next _ _)
  | union d a b => exact combine_answers _ d a b s
  | intersect d a b => exact combine_answers _ d a b s

end Sys2Proof.Machine

/-! ## The access summary (R31) -/

namespace Sys2Proof.Machine

/-! ### Consequences -/

/-- Every instruction answers a next state (R247). -/
theorem exec_eq (i : Instr) (s : State) :
    exec i s = .next (if reportedError i s = .none then s.after i
      else s.raised (reportedError i s)) := exec_answers i s

theorem exec_of_error {i : Instr} {s : State} (h : reportedError i s ≠ .none) :
    exec i s = .next (s.raised (reportedError i s)) := by rw [exec_eq, if_neg h]

theorem exec_of_no_error {i : Instr} {s : State} (h : reportedError i s = .none) :
    exec i s = .next (s.after i) := by rw [exec_eq, if_pos h]

/-- An instruction raised the reported error, or none is reported and its columns give the state. -/
theorem exec_inv {i : Instr} {s t : State} (h : exec i s = .next t) :
    (reportedError i s ≠ .none ∧ t = s.raised (reportedError i s)) ∨
      (reportedError i s = .none ∧ t = s.after i) := by
  by_cases he : reportedError i s = .none
  · rw [exec_of_no_error he] at h
    exact .inr ⟨he, (Host.Outcome.next.inj h).symm⟩
  · rw [exec_of_error he] at h
    exact .inl ⟨he, (Host.Outcome.next.inj h).symm⟩

theorem code_eq_zero_iff (e : ErrorCode) : e.code = 0#4 ↔ e = .none := by
  cases e <;> decide

theorem none_notMem_errorsOf (o : Op) : ErrorCode.none ∉ errorsOf o := by
  cases o <;> decide

/-- Where no error is reported, what an instruction's success presumes holds. -/
theorem effect_after {i : Instr} {s : State} (h : reportedError i s = .none) :
    Effect i s (s.after i) := by
  rcases exec_cases (exec_of_no_error h) with ⟨e, he, heq⟩ | hE
  · have hcode : 0#4 = e.code := by
      simpa [State.after, ErrorCode.code] using congrArg (fun t => errOf t.status) heq
    rw [(code_eq_zero_iff e).1 hcode.symm] at he
    exact absurd he (none_notMem_errorsOf _)
  · exact hE

/-! ### What an instruction reads -/

/-- The guards of the instructions read the same in `s'` as in `s`. -/
structure SameGuards (s s' : State) : Prop where
  numSlots : s'.slots.length = s.slots.length
  wMax : s'.wMax = s.wMax
  m : ∀ n, (s'.slot n).m = (s.slot n).m
  k : ∀ n, (s'.slot n).k = (s.slot n).k

/-- The reported error depends on the sizes, every `M` and every `K` only (R210). -/
theorem reportedError_congr {s s' : State} (h : SameGuards s s') (i : Instr) :
    reportedError i s' = reportedError i s := by
  have : causes s' i = causes s i := by
    cases i <;> simp only [causes, h.numSlots, h.wMax, h.m, h.k]
  rw [reportedError_eq, reportedError_eq, this]

theorem slot_eq_of_slots_eq {s s' : State} (h : s'.slots = s.slots) (n : SlotNo) :
    s'.slot n = s.slot n := State.slot_congr (by rw [h])

theorem sameGuards_of_slots_eq {s s' : State} (h : s'.slots = s.slots) (hw : s'.wMax = s.wMax) :
    SameGuards s s' where
  numSlots := by rw [h]
  wMax := hw
  m n := by rw [slot_eq_of_slots_eq h]
  k n := by rw [slot_eq_of_slots_eq h]

/-! ### The columns: what they keep -/

theorem reportedError_of_writesAcc {i : Instr} (h : writesAcc i = true) (s : State) :
    reportedError i s = .none := by
  cases i with
  | hinit | hunit u | hload v => exact firstError_nil
  | _ => cases h

theorem accAfter_of_not_writesAcc {i : Instr} (h : writesAcc i = false) (a : Word) :
    accAfter i a = a := by
  cases i with
  | hinit | hunit u | hload v => cases h
  | _ => rfl

theorem resultAfter_of_not_writesResult {i : Instr} (h : writesResult i = false) (s : State) :
    resultAfter i s = s.result := by
  cases i with
  | hread | remix | index n imm | test n | rdword n w | rdm n | rdk n => cases h
  | _ => rfl

theorem tAfter_of_not_writesT {i : Instr} (h : writesT i = false) (s : State) :
    tAfter i s = tOf s.status := by
  cases i with
  | test n => cases h
  | _ => rfl

theorem length_slotsAfter (i : Instr) (s : State) :
    (slotsAfter i s).length = s.slots.length := by
  cases i <;> simp [slotsAfter]

theorem slotsAfter_getElem?_ne {i : Instr} {n : SlotNo} (hr : rebuildsSlot n i = false)
    (ha : i ≠ .add n) (s : State) : (slotsAfter i s)[n.toNat]? = s.slots[n.toNat]? := by
  have hset : ∀ (d : SlotNo) (x : Slot), d ≠ n →
      (s.setSlot d x).slots[n.toNat]? = s.slots[n.toNat]? := fun d x hd =>
    State.slots_setSlot_ne s d x _ fun h => hd (BitVec.eq_of_toNat_eq h.symm)
  cases i with
  | config d k data => exact hset d _ (ne_of_beq_false hr)
  | add d => exact hset d _ fun h => ha (by rw [h])
  | union d a b => exact hset d _ (ne_of_beq_false hr)
  | intersect d a b => exact hset d _ (ne_of_beq_false hr)
  | _ => rfl

/-! ### The columns: what they depend on -/

theorem accAfter_congr {i : Instr} {s s' : State} (hr : readsAcc i = true → s'.acc = s.acc)
    (h : s'.acc = s.acc ∨ writesAcc i = true) : accAfter i s'.acc = accAfter i s.acc := by
  rcases h with h | h
  · rw [h]
  · cases i with
    | hinit | hload v => rfl
    | hunit u => rw [hr rfl]
    | _ => cases h

theorem slotsAfter_congr {i : Instr} {s s' : State} (hs : s'.slots = s.slots)
    (hr : readsAcc i = true → s'.acc = s.acc) : slotsAfter i s' = slotsAfter i s := by
  have hslot := slot_eq_of_slots_eq hs
  cases i with
  | config n k data => simp only [slotsAfter, State.setSlot, hs, hslot]
  | add n => simp only [slotsAfter, State.setSlot, hs, hslot, hr rfl]
  | union d a b => simp only [slotsAfter, combined, State.setSlot, hs, hslot]
  | intersect d a b => simp only [slotsAfter, combined, State.setSlot, hs, hslot]
  | _ => exact hs

theorem testOutcome_congr {n : SlotNo} {s s' : State} (hs : s'.slots = s.slots)
    (ha : s'.acc = s.acc) : testOutcome n s' = testOutcome n s := by
  rw [testOutcome, testOutcome, slot_eq_of_slots_eq hs, ha]

theorem resultAfter_congr {i : Instr} {s s' : State} (hs : s'.slots = s.slots)
    (hr : readsAcc i = true → s'.acc = s.acc) (h : s'.result = s.result ∨ writesResult i = true) :
    resultAfter i s' = resultAfter i s := by
  have hslot := slot_eq_of_slots_eq hs
  cases i with
  | hread => exact hr rfl
  | remix => simp only [resultAfter, hr rfl]
  | index n imm => simp only [resultAfter, hslot, hr rfl]
  | test n => simp only [resultAfter, testOutcome_congr hs (hr rfl)]
  | rdword n w => simp only [resultAfter, hslot]
  | rdm n => simp only [resultAfter, hslot]
  | rdk n => simp only [resultAfter, hslot]
  | _ => exact h.resolve_right Bool.false_ne_true

theorem tAfter_congr {i : Instr} {s s' : State} (hs : s'.slots = s.slots)
    (hr : readsAcc i = true → s'.acc = s.acc)
    (h : tOf s'.status = tOf s.status ∨ writesT i = true) : tAfter i s' = tAfter i s := by
  cases i with
  | test n => exact testOutcome_congr hs (hr rfl)
  | _ => exact h.resolve_right Bool.false_ne_true

/-! ### The frame and the reads -/

/-- What an instruction leaves: R31's columns as a frame. -/
theorem exec_frame {i : Instr} {s t : State} (h : exec i s = .next t) :
    KeepsMachine s t ∧ (writesAcc i = false → t.acc = s.acc) ∧
      (writesResult i = false → t.result = s.result) ∧
      (writesT i = false → tOf t.status = tOf s.status) ∧
      (∀ n : SlotNo, rebuildsSlot n i = false → i ≠ .add n → t.slot n = s.slot n) := by
  rcases exec_inv h with ⟨-, rfl⟩ | ⟨-, rfl⟩
  · exact ⟨⟨rfl, rfl, rfl, rfl⟩, fun _ => rfl, fun _ => rfl, fun _ => tOf_statusRaised _ _,
      fun _ _ _ => rfl⟩
  · exact ⟨⟨rfl, length_slotsAfter i s, rfl, rfl⟩, fun hw => accAfter_of_not_writesAcc hw _,
      fun hw => resultAfter_of_not_writesResult hw s,
      fun hw => (tOf_packStatus _ _ _).trans (tAfter_of_not_writesT hw s),
      fun n hr ha => State.slot_congr (slotsAfter_getElem?_ne hr ha s)⟩

@[simp] theorem errOf_after (i : Instr) (s : State) : errOf (s.after i).status = 0#4 :=
  errOf_packStatus _ _ _

@[simp] theorem tOf_after (i : Instr) (s : State) : tOf (s.after i).status = tAfter i s :=
  tOf_packStatus _ _ _

@[simp] theorem errOf_raised (e : ErrorCode) (s : State) : errOf (s.raised e).status = e.code :=
  errOf_statusRaised _ _

@[simp] theorem tOf_raised (e : ErrorCode) (s : State) : tOf (s.raised e).status = tOf s.status :=
  tOf_statusRaised _ _

/-- Settles O46: each instruction's outcome is its reported error or its columns, and both depend only
on what R31 says is read. -/
theorem accessSummaryHolds : Obligations.AccessSummaryHolds := by
  unfold Obligations.AccessSummaryHolds
  refine ⟨fun i s t h => exec_frame h, fun i s t s' h hs hw hr => ?_⟩
  have hcong := reportedError_congr (sameGuards_of_slots_eq hs hw) i
  rcases exec_inv h with ⟨he, rfl⟩ | ⟨he, rfl⟩
  · have hcode : (reportedError i s).code ≠ 0#4 := mt (code_eq_zero_iff _).1 he
    refine ⟨s'.raised (reportedError i s), ?_, hs, by simp, fun h => ?_, fun h => ?_, fun h => ?_⟩
    · rw [exec_of_error (hcong ▸ he), hcong]
    · exact h.resolve_right fun hw => he (reportedError_of_writesAcc hw s)
    · exact h.resolve_right fun hw => hcode ((errOf_raised _ s).symm.trans hw.2)
    · simpa using h.resolve_right fun hw => hcode ((errOf_raised _ s).symm.trans hw.2)
  · exact ⟨s'.after i, exec_of_no_error (hcong ▸ he), slotsAfter_congr hs hr, by simp,
      accAfter_congr hr, fun h => resultAfter_congr hs hr (h.imp_right And.left),
      fun h => by simpa using tAfter_congr hs hr (h.imp_right And.left)⟩

end Sys2Proof.Machine

/-! ## Legal states are kept (R23 to R27, R240) -/

namespace Sys2Proof.Machine

/-! ### One slot -/

theorem roundUp32_mod (bits : Nat) : roundUp32 bits % 32 = 0 := by
  unfold roundUp32; omega

theorem le_roundUp32 (bits : Nat) : bits ≤ roundUp32 bits := by
  unfold roundUp32; omega

theorem legal_unconfigure (wMax : Nat) (x : Slot) : x.unconfigure.legal wMax := .inl ⟨rfl, rfl⟩

/-- What a configured slot's legality says of its `M` and `K` (R24, R25, R27). -/
theorem legal_of_configured {wMax : Nat} {x : Slot} (h : x.legal wMax) (hm : x.m ≠ 0#32) :
    x.m.toNat % 32 = 0 ∧ 32 ≤ x.m.toNat ∧ x.m.toNat ≤ 32 * wMax ∧ 1 ≤ x.k.toNat :=
  h.resolve_left fun h0 => hm h0.1

theorem storageLegal_build {wMax m : Nat} {x : Slot} (k : Half) (f : Nat → Word)
    (h : x.storageLegal wMax) (hm : m ≤ 32 * wMax) : (x.build m k f).storageLegal wMax :=
  ⟨Slot.wf_build m k f h.1, Slot.below_build m k f h.2 (Nat.div_le_of_le_mul hm)⟩

/-- The filter that CONFIG builds has a legal `M`: `W_MAX` is at most `2^26`, so it fits 32 bits. -/
theorem legal_build_config {wMax bits : Nat} (x : Slot) {k : Half} (f : Nat → Word)
    (hw : wMax ≤ 2 ^ 26) (hb : 0 < bits) (hk : k ≠ 0#16) (hcap : roundUp32 bits ≤ 32 * wMax) :
    (x.build (roundUp32 bits) k f).legal wMax := by
  have hmod := roundUp32_mod bits
  have hle := le_roundUp32 bits
  have hk' : k.toNat ≠ 0 := fun h => hk (BitVec.eq_of_toNat_eq h)
  have hm : (x.build (roundUp32 bits) k f).m.toNat = roundUp32 bits := by
    rw [Slot.build_m, BitVec.toNat_ofNat]; omega
  refine .inr ⟨?_, ?_, ?_, ?_⟩
  · rw [hm]; exact hmod
  · rw [hm]; omega
  · rw [hm]; exact hcap
  · rw [Slot.build_k]; omega

/-- A filter built with the `M` and `K` of a configured slot is legal when that slot is. -/
theorem legal_build_of_configured {wMax : Nat} {y : Slot} (x : Slot) (f : Nat → Word)
    (hy : y.legal wMax) (hm : y.m ≠ 0#32) : (x.build y.bitCount y.k f).legal wMax := by
  have : (x.build y.bitCount y.k f).m = y.m := by simp [Slot.bitCount]
  unfold Slot.legal
  rw [this, Slot.build_k]
  exact .inr (legal_of_configured hy hm)

/-- The positions of a key are below `M` (R131). -/
theorem position_lt_of_mem_positions {x : Slot} {a : Word} {p : Nat} (hm : x.m ≠ 0#32)
    (h : p ∈ x.positions a) : p < x.m.toNat := by
  obtain ⟨i, -, rfl⟩ := Slot.mem_positions.1 h
  have : x.m.toNat ≠ 0 := fun h0 => hm (BitVec.eq_of_toNat_eq h0)
  exact Nat.mod_lt _ (by omega)

theorem legal_setBits {wMax : Nat} {x : Slot} (ps : List Nat) (h : x.legal wMax) :
    (x.setBits ps).legal wMax := by
  unfold Slot.legal
  rwa [Slot.setBits_m, Slot.setBits_k]

theorem storageLegal_setBits_positions {wMax : Nat} {x : Slot} (a : Word) (hl : x.legal wMax)
    (hm : x.m ≠ 0#32) (h : x.storageLegal wMax) :
    (x.setBits (x.positions a)).storageLegal wMax := by
  refine ⟨Slot.wf_setBits _ h.1, Slot.below_setBits _ h.2 fun p hp => ?_⟩
  obtain ⟨-, -, hle, -⟩ := legal_of_configured hl hm
  have := position_lt_of_mem_positions hm hp
  omega

/-! ### STATUS -/

theorem statusLegal_zero : statusLegal 0#32 := by decide

theorem statusLegal_raised (e : ErrorCode) (st : Word) : statusLegal (statusRaised e st) :=
  ⟨reserved_statusRaised e st, by rw [errOf_statusRaised]; exact errorCode_le_seven e,
    fun _ => stickyOf_statusRaised e st⟩

/-- STATUS with ERR at NONE is legal whatever T and STICKY are. -/
theorem statusLegal_ok (t sticky : Bool) :
    statusLegal (packStatus ErrorCode.none.code t sticky) :=
  ⟨reserved_packStatus _ _ _, by rw [errOf_packStatus]; exact errorCode_le_seven .none,
    fun h => absurd (errOf_packStatus _ _ _) h⟩

/-! ### The whole state -/

/-- Every slot is legal, and so is its storage. -/
abbrev SlotsLegal (wMax : Nat) (slots : List Slot) : Prop :=
  ∀ x ∈ slots, x.legal wMax ∧ x.storageLegal wMax

/-- A legal state with other legal slots, another legal STATUS and any registers. -/
theorem inv_of_registers {s t : State} (h : s.Inv) (hw : t.wMax = s.wMax)
    (hlen : t.slots.length = s.slots.length) (hport : t.port = s.port)
    (hslots : SlotsLegal s.wMax t.slots) (hst : statusLegal t.status) : t.Inv := by
  obtain ⟨hcfg, -, -, hdone⟩ := h
  refine ⟨?_, by rwa [hw], hst, by rwa [hport]⟩
  simpa only [State.config, hw, hlen] using hcfg

theorem inv_withPort {s : State} (h : s.Inv) (p : Port) (es : List HostEvent)
    (hp : p.phase.isExecuting = true → p.done = false) :
    State.Inv { s with port := p, stream := es } := by
  obtain ⟨hcfg, hslots, hst, -⟩ := h
  exact ⟨hcfg, hslots, hst, hp⟩

theorem inv_withStream {s : State} (h : s.Inv) (es : List HostEvent) :
    State.Inv { s with stream := es } := by
  obtain ⟨hcfg, hslots, hst, hdone⟩ := h
  exact ⟨hcfg, hslots, hst, hdone⟩

theorem combine_slotsLegal {f : Word → Word → Word} {d a b : SlotNo} {s t : State}
    (h : SlotsLegal s.wMax s.slots) (hE : CombineEffect f d a b s t) :
    SlotsLegal s.wMax t.slots := by
  obtain ⟨hd, ⟨ha, hma⟩, -, -, rfl⟩ := hE
  obtain ⟨hal, -⟩ := h _ (State.slot_mem ha)
  obtain ⟨-, -, hle, -⟩ := legal_of_configured hal hma
  exact State.forall_setSlot h ⟨legal_build_of_configured _ _ hal hma,
    storageLegal_build _ _ (h _ (State.slot_mem hd)).2 hle⟩

/-- The slots that an instruction leaves are legal when those it found are. -/
theorem slotsLegal_after {i : Instr} {s : State} (hw : s.wMax ≤ 2 ^ 26)
    (h : SlotsLegal s.wMax s.slots) (hE : Effect i s (s.after i)) :
    SlotsLegal s.wMax (slotsAfter i s) := by
  cases i with
  | config n k data =>
    obtain ⟨hn, hbits, hk, hcap, -⟩ := hE
    have hpos : 0 < (requestedBits data).toNat := Int.lt_toNat.2 hbits
    exact State.forall_setSlot h ⟨legal_build_config _ _ hw hpos hk hcap,
      storageLegal_build _ _ (h _ (State.slot_mem hn)).2 hcap⟩
  | add n =>
    obtain ⟨⟨hn, hm⟩, -⟩ := hE
    obtain ⟨hl, hst⟩ := h _ (State.slot_mem hn)
    exact State.forall_setSlot h
      ⟨legal_setBits _ hl, storageLegal_setBits_positions _ hl hm hst⟩
  | union d a b => exact combine_slotsLegal (t := s.after _) h hE
  | intersect d a b => exact combine_slotsLegal (t := s.after _) h hE
  | _ => exact h

theorem inv_raised {s : State} (e : ErrorCode) (h : s.Inv) : (s.raised e).Inv := by
  have ⟨_, hslots, _, _⟩ := h
  exact inv_of_registers h rfl rfl rfl hslots (statusLegal_raised e _)

theorem inv_exec {i : Instr} {s t : State} (h : s.Inv) (ht : exec i s = .next t) : t.Inv := by
  rcases exec_inv ht with ⟨-, rfl⟩ | ⟨he, rfl⟩
  · exact inv_raised _ h
  · have ⟨⟨_, _, _, hw⟩, hslots, _, _⟩ := h
    exact inv_of_registers h rfl (length_slotsAfter i s) rfl
      (slotsLegal_after hw hslots (effect_after he)) (statusLegal_ok _ _)

/-- A command is its decoded instruction, or raises ILLEGAL_COMMAND (R81, R82). -/
theorem runCommand_eq (c : Command) (s : State) :
    (∃ i, decode c = .ok i ∧ runCommand c s = exec i s) ∨
      runCommand c s = .next (s.raised .illegalCommand) := by
  unfold runCommand
  cases decode c with
  | ok i => exact .inl ⟨i, rfl, rfl⟩
  | error e => exact .inr rfl

theorem inv_runCommand {c : Command} {s t : State} (h : s.Inv) (ht : runCommand c s = .next t) :
    t.Inv := by
  rcases runCommand_eq c s with ⟨i, -, hi⟩ | hi
  · exact inv_exec h (hi ▸ ht)
  · rw [hi] at ht
    exact Host.Outcome.next.inj ht ▸ inv_raised _ h

/-! ### Accepting, completing and resetting -/

theorem inv_accept {s : State} (c : Command) (h : s.Inv) : (s.accept c).Inv :=
  inv_withPort h _ _ fun _ => rfl

theorem inv_finishCommand {c : Command} {s t : State} (h : s.Inv)
    (ht : finishCommand c s = .next t) : t.Inv := by
  unfold finishCommand at ht
  split at ht
  · next u hu =>
    obtain rfl := Host.Outcome.next.inj ht
    exact inv_withPort (inv_runCommand h hu) _ _ fun hp => nomatch hp
  · cases ht
  · cases ht

/-- An abandoned command leaves as many slots as there were, each with legal storage. -/
theorem abandon_slots {s : State} (h : SlotsLegal s.wMax s.slots) :
    s.abandon.slots.length = s.slots.length ∧ ∀ x ∈ s.abandon.slots, x.storageLegal s.wMax := by
  have hkept : ∀ x ∈ s.slots, x.storageLegal s.wMax := fun x hx => (h x hx).2
  unfold State.abandon
  split
  · split
    · next t ht =>
      obtain ⟨-, hlen, -, -⟩ := keepsMachine_of_runCommand ht
      refine ⟨by simp [hlen], fun x hx => ?_⟩
      obtain ⟨j, hj, rfl⟩ := List.mem_iff_getElem.1 hx
      rw [List.getElem_zipWith]
      exact storageLegal_abandoned (hkept _ (List.getElem_mem _))
    · exact ⟨rfl, hkept⟩
  · exact ⟨rfl, hkept⟩

theorem inv_resetEdge {s : State} (o : Option Command) (h : s.Inv) : (s.resetEdge o).Inv := by
  obtain ⟨hcfg, hslots, -, -⟩ := h
  obtain ⟨hlen, hstorage⟩ := abandon_slots hslots
  refine ⟨?_, fun x hx => ?_, statusLegal_zero, fun hp => nomatch hp⟩
  · simpa only [State.config, State.resetEdge_slots, State.resetEdge_wMax, State.abandon_wMax,
      List.length_map, hlen] using hcfg
  · rw [State.resetEdge_slots] at hx
    obtain ⟨y, hy, rfl⟩ := List.mem_map.1 hx
    rw [State.resetEdge_wMax, State.abandon_wMax]
    exact ⟨legal_unconfigure _ y, hstorage y hy⟩

theorem inv_nextEvent {s t : State} (h : s.Inv) (ht : nextEvent s = .next t) : t.Inv := by
  unfold nextEvent at ht
  split at ht
  · exact inv_finishCommand h ht
  · split at ht
    · exact Host.Outcome.next.inj ht ▸ inv_withPort h _ _ fun hp => nomatch hp
    · exact Host.Outcome.next.inj ht ▸ inv_resetEdge none (inv_withStream h _)
    · exact inv_finishCommand (inv_accept _ (inv_withStream h _)) ht

/-- Settles O47: a step is a whole command, a reset or rest, and each keeps the legal states. -/
theorem stepKeepsLegalStates : Obligations.StepKeepsLegalStates := fun _ _ h ht =>
  inv_nextEvent h ht

/-! ### Clock edges -/

theorem isExecuting_phaseAfter (s : State) : (phaseAfter s).isExecuting = false := by
  unfold phaseAfter
  split <;> rfl

theorem inv_completeEdge {c : Command} {s t : State} {o : Option Command} (h : s.Inv)
    (ht : completeEdge c s o = .next t) : t.Inv := by
  unfold completeEdge at ht
  split at ht
  · next u hu =>
    obtain rfl := Host.Outcome.next.inj ht
    refine inv_withPort (inv_runCommand h hu) _ _ fun hp => ?_
    exact absurd hp (by simp [isExecuting_phaseAfter])
  · cases ht
  · cases ht

/-- An edge without `rst` accepts, completes, or moves the port alone. -/
theorem inv_runEdge {i : PortInputs} {s t : State} (h : s.Inv) (ht : runEdge i s = .next t) :
    t.Inv := by
  have hport : ∀ p : Port, p.done = false → State.Inv { s with port := p } := fun p hp =>
    inv_withPort h p _ fun _ => hp
  unfold runEdge at ht
  split at ht
  · split at ht
    · exact Host.Outcome.next.inj ht ▸ inv_accept _ h
    · exact Host.Outcome.next.inj ht ▸ hport _ rfl
  · exact inv_completeEdge h ht
  all_goals exact Host.Outcome.next.inj ht ▸ hport _ rfl

/-- Settles O48: a reset edge, a command's completion and the port's moves keep the legal states. -/
theorem edgeKeepsLegalStates : Obligations.EdgeKeepsLegalStates := by
  intro i s t h ht
  unfold edge at ht
  split at ht
  · exact Host.Outcome.next.inj ht ▸ inv_resetEdge _ h
  · split at ht
    · exact inv_runEdge h ht
    · cases ht

/-! ### The state after reset -/

theorem inv_resetOf {cfg : Config} (h : cfg.legal) : (State.resetOf cfg).Inv := by
  refine ⟨?_, fun x hx => ?_, statusLegal_zero, fun hp => nomatch hp⟩
  · simpa [State.resetOf, State.config] using h
  · obtain rfl := List.eq_of_mem_replicate hx
    exact ⟨.inl ⟨rfl, rfl⟩, rfl, fun c hc => nomatch hc⟩

/-- Settles O49: every slot is unconfigured with no word listed, and STATUS is 0. -/
theorem resetIsLegal : Obligations.ResetIsLegal :=
  ⟨fun _ => inv_resetOf, inv_resetOf (by decide)⟩

end Sys2Proof.Machine

/-! ## Words at or above `M/32` are never seen (R26, D16) -/

namespace Sys2Proof.Machine

/-! ### One slot -/

theorem sameVisible_refl (x : Slot) : x.SameVisible x := ⟨rfl, rfl, fun _ _ => rfl⟩

theorem wordCount_build_le (x : Slot) (m : Nat) (k : Half) (f : Nat → Word) :
    (x.build m k f).wordCount ≤ m / 32 := by
  unfold Slot.wordCount Slot.bitCount
  rw [Slot.build_m, BitVec.toNat_ofNat]
  exact Nat.div_le_div_right (Nat.mod_le _ _)

/-- A filter shows only the words it was built with, not what its slot held. -/
theorem sameVisible_build (x y : Slot) (m : Nat) (k : Half) {f g : Nat → Word}
    (h : ∀ w, w < m / 32 → f w = g w) : (x.build m k f).SameVisible (y.build m k g) := by
  refine ⟨rfl, rfl, fun w hw => ?_⟩
  have hw' := Nat.lt_of_lt_of_le hw (wordCount_build_le x m k f)
  rw [Slot.read_build, Slot.read_build, if_pos hw', if_pos hw', h w hw']

/-- Setting a bit of a word reads no other word. -/
theorem sameVisible_setBit {x y : Slot} (p : Nat) (h : x.SameVisible y) :
    (x.setBit p).SameVisible (y.setBit p) := by
  obtain ⟨hm, hk, hread⟩ := h
  refine ⟨hm, hk, fun w hw => ?_⟩
  rw [Slot.setBit, Slot.setBit, Slot.read_write, Slot.read_write]
  split
  · next hp => rw [hread _ (hp ▸ hw)]
  · exact hread w hw

theorem sameVisible_setBits {x y : Slot} (ps : List Nat) (h : x.SameVisible y) :
    (x.setBits ps).SameVisible (y.setBits ps) := by
  induction ps generalizing x y with
  | nil => exact h
  | cons p ps ih => exact ih (sameVisible_setBit p h)

theorem positions_eq {x y : Slot} (h : x.SameVisible y) (a : Word) :
    x.positions a = y.positions a := by
  obtain ⟨hm, hk, -⟩ := h
  simp only [Slot.positions, Slot.bitCount, Slot.hashCount, hm, hk]

/-- Every position of a key lies in a visible word: `M` is a multiple of 32. -/
theorem allSet_positions_eq {wMax : Nat} {x y : Slot} (h : x.SameVisible y) (hl : x.legal wMax)
    (hm : x.m ≠ 0#32) (a : Word) :
    x.allSet (x.positions a) = y.allSet (y.positions a) := by
  rw [← positions_eq h]
  obtain ⟨-, -, hread⟩ := h
  obtain ⟨hmod, -, -, -⟩ := legal_of_configured hl hm
  have hbit : ∀ p ∈ x.positions a, x.bit p = y.bit p := fun p hp => by
    have hlt := position_lt_of_mem_positions hm hp
    have hvis : p / 32 < x.wordCount := by unfold Slot.wordCount Slot.bitCount; omega
    rw [Slot.bit_eq, Slot.bit_eq, hread _ hvis]
  unfold Slot.allSet
  rw [Bool.eq_iff_iff, List.all_eq_true, List.all_eq_true]
  exact forall₂_congr fun p hp => by rw [hbit p hp]

/-! ### The list of slots -/

/-- Replacing the same element of two related lists keeps them related. -/
theorem forall₂_set {α β : Type} {R : α → β → Prop} {l : List α} {l' : List β} {a : α} {b : β}
    (h : List.Forall₂ R l l') (hab : R a b) (n : Nat) :
    List.Forall₂ R (l.set n a) (l'.set n b) := by
  induction h generalizing n with
  | nil => exact .nil
  | cons h t ih =>
    cases n with
    | zero => exact .cons hab t
    | succ n => exact .cons h (ih n)

/-- Elements of two related lists at one index are related, the defaults included. -/
theorem forall₂_getD {α β : Type} {R : α → β → Prop} {l : List α} {l' : List β} {a : α} {b : β}
    (h : List.Forall₂ R l l') (hab : R a b) (n : Nat) : R (l.getD n a) (l'.getD n b) := by
  induction h generalizing n with
  | nil => exact hab
  | cons h t ih =>
    cases n with
    | zero => exact h
    | succ n => exact ih n

theorem sameVisible_slot {s s' : State} (h : List.Forall₂ Slot.SameVisible s.slots s'.slots)
    (n : SlotNo) : (s.slot n).SameVisible (s'.slot n) :=
  forall₂_getD h (sameVisible_refl _) _

theorem sameVisible_setSlot {s s' : State} {x y : Slot} (n : SlotNo)
    (h : List.Forall₂ Slot.SameVisible s.slots s'.slots) (hxy : x.SameVisible y) :
    List.Forall₂ Slot.SameVisible (s.setSlot n x).slots (s'.setSlot n y).slots :=
  forall₂_set h hxy _

theorem sameGuards_of_sameVisible {s s' : State} (h : s.SameVisible s') : SameGuards s s' := by
  obtain ⟨-, -, -, hw, -, -, hslots⟩ := h
  exact ⟨hslots.length_eq.symm, hw.symm, fun n => (sameVisible_slot hslots n).1.symm,
    fun n => (sameVisible_slot hslots n).2.1.symm⟩

/-! ### Instructions -/

theorem sameVisible_combined {f : Word → Word → Word} {d a b : SlotNo} {s s' t : State}
    (h : List.Forall₂ Slot.SameVisible s.slots s'.slots) (hE : CombineEffect f d a b s t) :
    (combined f d a b s).SameVisible (combined f d a b s') := by
  obtain ⟨-, -, -, hmab, -⟩ := hE
  obtain ⟨hma, hka, hra⟩ := sameVisible_slot h a
  obtain ⟨-, -, hrb⟩ := sameVisible_slot h b
  unfold combined Slot.bitCount
  rw [← hma, ← hka]
  refine sameVisible_build _ _ _ _ fun w hw => ?_
  rw [hra w hw, hrb w (by rw [Slot.wordCount, Slot.bitCount, ← hmab]; exact hw)]

theorem sameVisible_slotsAfter {i : Instr} {s s' : State} (h : s.SameVisible s')
    (hE : Effect i s (s.after i)) :
    List.Forall₂ Slot.SameVisible (slotsAfter i s) (slotsAfter i s') := by
  obtain ⟨hacc, -, -, -, -, -, hslots⟩ := h
  cases i with
  | config n k data =>
    exact sameVisible_setSlot n hslots (sameVisible_build _ _ _ _ fun _ _ => rfl)
  | add n =>
    refine sameVisible_setSlot n hslots ?_
    rw [← hacc, ← positions_eq (sameVisible_slot hslots n)]
    exact sameVisible_setBits _ (sameVisible_slot hslots n)
  | union d a b => exact sameVisible_setSlot d hslots (sameVisible_combined hslots hE)
  | intersect d a b => exact sameVisible_setSlot d hslots (sameVisible_combined hslots hE)
  | _ => exact hslots

theorem testOutcome_eq_of_sameVisible {n : SlotNo} {s s' : State} (hi : s.Inv)
    (h : s.SameVisible s') (hu : Usable s n) : testOutcome n s = testOutcome n s' := by
  obtain ⟨hacc, -, -, -, -, -, hslots⟩ := h
  obtain ⟨-, hlegal, -, -⟩ := hi
  obtain ⟨hn, hm⟩ := hu
  obtain ⟨hl, -⟩ := hlegal _ (State.slot_mem hn)
  rw [testOutcome, testOutcome, ← hacc]
  exact allSet_positions_eq (sameVisible_slot hslots n) hl hm _

theorem resultAfter_eq_of_sameVisible {i : Instr} {s s' : State} (hi : s.Inv)
    (h : s.SameVisible s') (hE : Effect i s (s.after i)) : resultAfter i s = resultAfter i s' := by
  have ⟨hacc, hres, _, _, _, _, hslots⟩ := h
  have hm : ∀ n, (s.slot n).m = (s'.slot n).m := fun n => (sameVisible_slot hslots n).1
  have hk : ∀ n, (s.slot n).k = (s'.slot n).k := fun n => (sameVisible_slot hslots n).2.1
  cases i with
  | hread => exact hacc
  | remix => exact congrArg remix hacc
  | index n imm => simp only [resultAfter, Slot.bitCount, hacc, hm]
  | test n =>
    obtain ⟨hu, -⟩ := hE
    simp only [resultAfter, testOutcome_eq_of_sameVisible hi h hu]
  | rdword n w =>
    obtain ⟨-, hw, -⟩ := hE
    obtain ⟨-, -, hread⟩ := sameVisible_slot hslots n
    exact hread _ hw
  | rdm n => exact hm n
  | rdk n => simp only [resultAfter, hk]
  | _ => exact hres

theorem tAfter_eq_of_sameVisible {i : Instr} {s s' : State} (hi : s.Inv)
    (h : s.SameVisible s') (hE : Effect i s (s.after i)) : tAfter i s = tAfter i s' := by
  cases i with
  | test n => obtain ⟨hu, -⟩ := hE; exact testOutcome_eq_of_sameVisible hi h hu
  | _ => obtain ⟨-, -, hst, -⟩ := h; exact congrArg tOf hst

theorem sameVisible_raised {s s' : State} (e : ErrorCode) (h : s.SameVisible s') :
    (s.raised e).SameVisible (s'.raised e) := by
  obtain ⟨hacc, hres, hst, hrest⟩ := h
  exact ⟨hacc, hres, congrArg (statusRaised e) hst, hrest⟩

theorem sameVisible_after {i : Instr} {s s' : State} (hi : s.Inv) (h : s.SameVisible s')
    (hE : Effect i s (s.after i)) : (s.after i).SameVisible (s'.after i) := by
  have ⟨hacc, _, hst, hw, hport, hstream, _⟩ := h
  refine ⟨congrArg (accAfter i) hacc, resultAfter_eq_of_sameVisible hi h hE, ?_, hw, hport,
    hstream, sameVisible_slotsAfter h hE⟩
  simp only [State.after, hst, tAfter_eq_of_sameVisible hi h hE]

theorem exec_sameVisible (i : Instr) {s s' : State} (hi : s.Inv) (h : s.SameVisible s') :
    ∃ t t', exec i s = .next t ∧ exec i s' = .next t' ∧ t.SameVisible t' := by
  have hcong := reportedError_congr (sameGuards_of_sameVisible h) i
  by_cases he : reportedError i s = .none
  · exact ⟨_, _, exec_of_no_error he, exec_of_no_error (hcong.trans he),
      sameVisible_after hi h (effect_after he)⟩
  · exact ⟨_, _, exec_of_error he, hcong ▸ exec_of_error (hcong ▸ he), sameVisible_raised _ h⟩

/-- Settles O52: the guards read no storage word, and each column reads visible ones only. -/
theorem invisibleWordsNeverMatter : Obligations.InvisibleWordsNeverMatter := by
  intro c s s' hi _ h
  unfold runCommand
  cases decode c with
  | ok i => exact exec_sameVisible i hi h
  | error e => exact ⟨_, _, rfl, rfl, sameVisible_raised .illegalCommand h⟩

end Sys2Proof.Machine

/-! ## Every command but HUNIT is idempotent (R55) -/

namespace Sys2Proof.Machine

/-! ### One slot -/

/-- Slots with the same `M`, `K` and words are equal: their storage is canonical. -/
theorem Slot.eq_of_read_eq {x y : Slot} (hx : x.words.wf = true) (hy : y.words.wf = true)
    (hm : x.m = y.m) (hk : x.k = y.k) (h : ∀ w, x.read w = y.read w) : x = y := by
  have hwords : x.words = y.words := Memory.eq_of_read_eq hx hy h
  cases x; cases y
  exact congr (congr (congrArg Slot.mk hm) hk) hwords

/-- Building a filter again with the same words changes nothing. -/
theorem Slot.build_build {x : Slot} {m : Nat} (k : Half) {f g : Nat → Word}
    (hx : x.words.wf = true) (h : ∀ w, w < m / 32 → g w = f w) :
    (x.build m k f).build m k g = x.build m k f := by
  have hwf := Slot.wf_build m k f hx
  refine Slot.eq_of_read_eq (Slot.wf_build m k g hwf) hwf rfl rfl fun w => ?_
  rw [Slot.read_build _ m k g]
  split
  · next hw => rw [h w hw, Slot.read_build, if_pos hw]
  · rfl

/-- Setting the same bits again changes nothing. -/
theorem Slot.setBits_setBits {x : Slot} (ps : List Nat) (hx : x.words.wf = true) :
    (x.setBits ps).setBits ps = x.setBits ps := by
  have hwf := Slot.wf_setBits ps hx
  refine Slot.eq_of_read_eq (Slot.wf_setBits ps hwf) hwf (Slot.setBits_m _ _) (Slot.setBits_k _ _)
    fun w => Slot.read_eq_of_bit_eq fun j _ => ?_
  rw [Slot.bit_setBits, Slot.bit_setBits, Bool.or_assoc, Bool.or_self]

/-- Setting bits leaves `M` and `K`, and so the positions of every key. -/
theorem Slot.positions_setBits (x : Slot) (ps : List Nat) (a : Word) :
    (x.setBits ps).positions a = x.positions a := by
  simp only [Slot.positions, Slot.bitCount, Slot.hashCount, Slot.setBits_m, Slot.setBits_k]

/-- Putting into a slot what it already holds changes nothing. -/
theorem slots_setSlot_again {s t : State} {n : SlotNo} {x y : Slot}
    (ht : t.slots = (s.setSlot n x).slots) (h : y = x) : (t.setSlot n y).slots = t.slots := by
  rw [State.setSlot_slots, ht, State.setSlot_slots, h, List.set_set]

/-! ### UNION and INTERSECT: the sources as the first one leaves them, aliased or not (R183) -/

section Combine

variable {f : Word → Word → Word} {d a b : SlotNo} {s t : State}
  (ht : t.slots = (s.setSlot d (combined f d a b s)).slots) (hd : d.toNat < s.slots.length)

include ht hd

theorem slot_combined (j : SlotNo) : t.slot j = if j = d then combined f d a b s else s.slot j := by
  rw [slot_eq_of_slots_eq ht]
  split
  · next h => rw [h, State.slot_setSlot_self _ hd]
  · next h => rw [State.slot_setSlot_ne _ h]

/-- A slot with the sources' `M` keeps it, the destination included. -/
theorem m_slot_combined {j : SlotNo} (hj : (s.slot j).m = (s.slot a).m) :
    (t.slot j).m = (s.slot j).m := by
  rw [slot_combined ht hd]
  split
  · rw [hj, combined, Slot.build_m, Slot.bitCount, BitVec.ofNat_toNat, BitVec.setWidth_eq]
  · rfl

theorem k_slot_combined : (t.slot a).k = (s.slot a).k := by
  rw [slot_combined ht hd]
  split
  · rw [combined, Slot.build_k]
  · rfl

/-- A visible word is the combined one in the destination, and the old one in any other slot. -/
theorem read_slot_combined (j : SlotNo) {w : Nat} (hw : w < (s.slot a).bitCount / 32) :
    (t.slot j).read w =
      if j = d then f ((s.slot a).read w) ((s.slot b).read w) else (s.slot j).read w := by
  rw [slot_combined ht hd]
  split
  · rw [combined, Slot.read_build, if_pos hw]
  · rfl

/-- An associative and idempotent word operation absorbs an operand given again, on either side. So
combining a second time builds the same filter, whichever sources the destination is. -/
theorem combined_combined [Std.Associative f] [Std.IdempotentOp f]
    (hwf : (s.slot d).words.wf = true) : combined f d a b t = combined f d a b s := by
  have hidem (x : Word) : f x x = x := Std.IdempotentOp.idempotent x
  have hright (x y : Word) : f (f x y) y = f x y := by
    rw [Std.Associative.assoc (op := f), hidem]
  have hleft (x y : Word) : f x (f x y) = f x y := by
    rw [← Std.Associative.assoc (op := f), hidem]
  rw [combined, Slot.bitCount, m_slot_combined ht hd rfl, k_slot_combined ht hd,
    slot_combined ht hd d, if_pos rfl]
  refine Slot.build_build _ hwf fun w hw => ?_
  rw [read_slot_combined ht hd a hw, read_slot_combined ht hd b hw]
  split <;> split
  · exact hidem _
  · exact hright _ _
  · exact hleft _ _
  · rfl

/-- The guards of UNION and INTERSECT read the same again. -/
theorem causes_combined (hm : (s.slot a).m = (s.slot b).m) :
    causes t (.union d a b) = causes s (.union d a b) := by
  have hlen : t.slots.length = s.slots.length := by rw [ht]; exact List.length_set
  simp only [causes, hlen, m_slot_combined ht hd rfl, m_slot_combined ht hd hm.symm]

end Combine

/-! ### The outcome of an instruction, the second time -/

theorem raised_raised (e : ErrorCode) (s : State) : (s.raised e).raised e = s.raised e := by
  simp only [State.raised, statusRaised_statusRaised]

theorem slot_after_add {s : State} {n : SlotNo} (hn : n.toNat < s.slots.length) :
    (s.after (.add n)).slot n = (s.slot n).setBits ((s.slot n).positions s.acc) :=
  State.slot_setSlot_self _ hn

/-- The guards answer as before: success leaves what they read as it found it. -/
theorem reportedError_after {i : Instr} {s : State} (hE : Effect i s (s.after i)) :
    reportedError i (s.after i) = reportedError i s := by
  have hlen : (s.after i).slots.length = s.slots.length := length_slotsAfter i s
  have hw : (s.after i).wMax = s.wMax := rfl
  cases i with
  | config n k data => simp only [reportedError_eq, causes, hlen, hw]
  | add n =>
    obtain ⟨⟨hn, -⟩, -⟩ := hE
    simp only [reportedError_eq, causes, hlen, slot_after_add hn, Slot.setBits_m]
  | union d a b =>
    obtain ⟨hd, -, -, hm, -⟩ := hE
    exact congrArg firstError (causes_combined (f := fun x y => x ||| y) rfl hd hm)
  | intersect d a b =>
    obtain ⟨hd, -, -, hm, -⟩ := hE
    exact congrArg firstError (causes_combined (f := fun x y => x &&& y) rfl hd hm)
  | _ =>
    refine reportedError_congr (s := s) (sameGuards_of_slots_eq ?_ hw) _
    simp only [State.after, slotsAfter]

/-- HUNIT alone computes the new accumulator from the old one. -/
theorem accAfter_accAfter {i : Instr} (hi : ∀ v, i ≠ .hunit v) (a : Word) :
    accAfter i (accAfter i a) = accAfter i a := by
  cases i with
  | hunit u => exact absurd rfl (hi u)
  | _ => rfl

theorem slotsAfter_of_writesResult {i : Instr} (h : writesResult i = true) (s : State) :
    slotsAfter i s = s.slots := by
  cases i with
  | config n k data | add n | union d a b | intersect d a b => cases h
  | _ => rfl

theorem accAfter_of_writesResult {i : Instr} (h : writesResult i = true) (a : Word) :
    accAfter i a = a := by
  cases i with
  | hinit | hunit u | hload v => cases h
  | _ => rfl

/-- An instruction that writes RESULT keeps all that it computes RESULT from. -/
theorem resultAfter_after (i : Instr) (s : State) :
    resultAfter i (s.after i) = resultAfter i s := by
  cases hw : writesResult i with
  | true =>
    exact resultAfter_congr (slotsAfter_of_writesResult hw s)
      (fun _ => accAfter_of_writesResult hw s.acc) (.inr hw)
  | false => exact resultAfter_of_not_writesResult hw _

theorem tAfter_after (i : Instr) (s : State) : tAfter i (s.after i) = tAfter i s := by
  cases i with
  | test n => exact testOutcome_congr rfl rfl
  | _ => exact tOf_after _ s

theorem slotsAfter_after {i : Instr} {s : State} (h : SlotsLegal s.wMax s.slots)
    (hE : Effect i s (s.after i)) : slotsAfter i (s.after i) = slotsAfter i s := by
  have hwf {n : SlotNo} (hn : n.toNat < s.slots.length) : (s.slot n).words.wf = true :=
    (h _ (State.slot_mem hn)).2.1
  cases i with
  | config n k data =>
    obtain ⟨hn, -⟩ := hE
    refine slots_setSlot_again (t := s.after (.config n k data)) rfl ?_
    have hslot : (s.after (.config n k data)).slot n =
      (s.slot n).build _ k (fun _ => 0#32) := State.slot_setSlot_self _ hn
    rw [hslot]
    exact Slot.build_build k (hwf hn) fun _ _ => rfl
  | add n =>
    obtain ⟨⟨hn, -⟩, -⟩ := hE
    refine slots_setSlot_again (t := s.after (.add n)) rfl ?_
    rw [slot_after_add hn, Slot.positions_setBits]
    exact Slot.setBits_setBits _ (hwf hn)
  | union d a b =>
    obtain ⟨hd, -⟩ := hE
    exact slots_setSlot_again (t := s.after (.union d a b)) rfl (combined_combined rfl hd (hwf hd))
  | intersect d a b =>
    obtain ⟨hd, -⟩ := hE
    exact slots_setSlot_again (t := s.after (.intersect d a b)) rfl
      (combined_combined rfl hd (hwf hd))
  | _ => simp only [slotsAfter, State.after]

theorem after_after {i : Instr} {s : State} (hi : ∀ v, i ≠ .hunit v)
    (h : SlotsLegal s.wMax s.slots) (hE : Effect i s (s.after i)) :
    (s.after i).after i = s.after i := by
  have hsticky : stickyOf (s.after i).status = stickyOf s.status := stickyOf_packStatus _ _ _
  rw [State.after, resultAfter_after, tAfter_after, slotsAfter_after h hE, hsticky]
  simp only [State.after, accAfter_accAfter hi]

/-- Settles O40: the guards answer the second time as they did the first, and each column of an
instruction other than HUNIT is a fixed point of what it does. -/
theorem commandsAreIdempotent : Obligations.CommandsAreIdempotent := by
  intro i s t u hi ⟨_, hslots, _, _⟩ ht hu
  rcases exec_inv ht with ⟨he, rfl⟩ | ⟨he, rfl⟩
  · have hagain : reportedError i (s.raised (reportedError i s)) = reportedError i s :=
      reportedError_congr (sameGuards_of_slots_eq rfl rfl) i
    rw [exec_of_error (hagain ▸ he), hagain, raised_raised] at hu
    exact (Host.Outcome.next.inj hu).symm
  · have hE := effect_after he
    rw [exec_of_no_error ((reportedError_after hE).trans he), after_after hi hslots hE] at hu
    exact (Host.Outcome.next.inj hu).symm

end Sys2Proof.Machine

/-! ## Encoding and decoding (R73 to R82) -/

namespace Sys2Proof

/-! ### What the decoder answers -/

/-- A word decodes to `i` exactly when it has an operation's opcode and zero reserved fields, and `i` is
that operation with the operands of the word. -/
theorem decode_eq_ok_iff {c : Command} {i : Instr} :
    decode c = .ok i ↔
      ∃ o : Op, opField c.word = o.code ∧ reservedZero o.format c.word = true ∧
        o.withOperands c.word c.data = i := by
  unfold decode
  constructor
  · intro h
    split at h
    · cases h
    · next o ho =>
      split at h
      · next hr => exact ⟨o, (code_of_opOf ho).symm, hr, Except.ok.inj h⟩
      · cases h
  · rintro ⟨o, hop, hr, rfl⟩
    simp only [hop, opOf_code, hr, if_true]

@[simp] theorem op_withOperands (o : Op) (w d : Word) : (o.withOperands w d).op = o := by
  cases o <;> rfl

/-- An operation that does not use `DATA` has the same operands whatever it is (R82). -/
theorem withOperands_congr_data {o : Op} (h : o.usesData = false) (w d d' : Word) :
    o.withOperands w d = o.withOperands w d' := by
  cases o with
  | hload | config | rdword => cases h
  | _ => rfl

/-! ### The fields of an encoded instruction -/

theorem opField_encode (i : Instr) : opField (encode i).word = i.op.code := by
  cases i with
  | nop | hinit | hload | hread | remix => exact opField_packN _
  | hunit => exact opField_packH _ _
  | index | config => exact opField_packSI _ _ _
  | add | test | rdword | rdm | rdk => exact opField_packS _ _
  | union | intersect => exact opField_packT _ _ _ _

theorem reservedZero_encode (i : Instr) : reservedZero i.op.format (encode i).word = true := by
  cases i with
  | nop | hinit | hload | hread | remix => exact reservedZero_packN _
  | hunit => exact reservedZero_packH _ _
  | index | config => exact reservedZero_packSI _ _ _
  | add | test | rdword | rdm | rdk => exact reservedZero_packS _ _
  | union | intersect => exact reservedZero_packT _ _ _ _

theorem withOperands_encode (i : Instr) :
    i.op.withOperands (encode i).word (encode i).data = i := by
  cases i <;> simp [encode, Instr.op, Op.withOperands]

/-- Settles O1: the encoded word has the opcode, zero reserved fields and the operands of `i`. -/
theorem decodeEncodeRoundTrip : Obligations.DecodeEncodeRoundTrip := fun i =>
  decode_eq_ok_iff.2 ⟨i.op, opField_encode i, reservedZero_encode i, withOperands_encode i⟩

/-! ### Packing the fields of a word -/

section Pack

open BitVec

variable {o : Op} {w : Word}

theorem packN_opField (hop : opField w = o.code) (hr : reservedZero .N w = true) : packN o = w := by
  rw [packN, ← hop, ← eq_of_beq hr, opField]
  rw [extractLsb'_append_extractLsb'_eq_extractLsb' (by rfl : 24 = 0 + 24),
    extractLsb'_eq_self]

theorem packH_fields (hop : opField w = o.code) (hr : reservedZero .H w = true) :
    packH o (immField w) = w := by
  rw [packH, ← hop, ← eq_of_beq hr, opField, immField]
  rw [extractLsb'_append_extractLsb'_eq_extractLsb' (by rfl : 24 = 16 + 8),
    extractLsb'_append_extractLsb'_eq_extractLsb' (by rfl : 16 = 0 + 16),
    extractLsb'_eq_self]

theorem packS_fields (hop : opField w = o.code) (hr : reservedZero .S w = true) :
    packS o (slotField w) = w := by
  rw [packS, ← hop, ← eq_of_beq hr, opField, slotField]
  rw [extractLsb'_append_extractLsb'_eq_extractLsb' (by rfl : 24 = 20 + 4),
    extractLsb'_append_extractLsb'_eq_extractLsb' (by rfl : 20 = 0 + 20),
    extractLsb'_eq_self]

theorem packSI_fields (hop : opField w = o.code) (hr : reservedZero .SI w = true) :
    packSI o (slotField w) (immField w) = w := by
  rw [packSI, ← hop, ← eq_of_beq hr, opField, slotField, immField]
  rw [extractLsb'_append_extractLsb'_eq_extractLsb' (by rfl : 24 = 20 + 4),
    extractLsb'_append_extractLsb'_eq_extractLsb' (by rfl : 20 = 16 + 4),
    extractLsb'_append_extractLsb'_eq_extractLsb' (by rfl : 16 = 0 + 16),
    extractLsb'_eq_self]

theorem packT_fields (hop : opField w = o.code) (hr : reservedZero .T w = true) :
    packT o (slotField w) (aField w) (bField w) = w := by
  rw [packT, ← hop, ← eq_of_beq hr, opField, slotField, aField, bField]
  rw [extractLsb'_append_extractLsb'_eq_extractLsb' (by rfl : 24 = 20 + 4),
    extractLsb'_append_extractLsb'_eq_extractLsb' (by rfl : 20 = 16 + 4),
    extractLsb'_append_extractLsb'_eq_extractLsb' (by rfl : 16 = 12 + 4),
    extractLsb'_append_extractLsb'_eq_extractLsb' (by rfl : 12 = 0 + 12),
    extractLsb'_eq_self]

theorem encode_withOperands_word (d : Word) (hop : opField w = o.code)
    (hr : reservedZero o.format w = true) : (encode (o.withOperands w d)).word = w := by
  cases o with
  | nop | hinit | hload | hread | remix => exact packN_opField hop hr
  | hunit => exact packH_fields hop hr
  | index | config => exact packSI_fields hop hr
  | add | test | rdword | rdm | rdk => exact packS_fields hop hr
  | union | intersect => exact packT_fields hop hr

theorem encode_withOperands_data (d : Word) (h : o.usesData = true) :
    (encode (o.withOperands w d)).data = d := by
  cases o with
  | hload | config | rdword => rfl
  | _ => cases h

end Pack

/-- Settles O3: the opcode, the operand fields and the zero reserved fields make up all of `CMD`. -/
theorem encodeReproducesDecodedWord : Obligations.EncodeReproducesDecodedWord := by
  intro c i h
  obtain ⟨o, hop, hr, rfl⟩ := decode_eq_ok_iff.1 h
  exact ⟨encode_withOperands_word _ hop hr, fun hd =>
    encode_withOperands_data _ (op_withOperands o _ _ ▸ hd)⟩

/-! ### The reserved field of a format -/

/-- The lowest bit of the reserved field (R73). -/
def Format.reservedLo : Format → Nat
  | .N | .S | .T => 0
  | .H | .SI => 16

/-- The width of the reserved field (R73). -/
def Format.reservedLen : Format → Nat
  | .N => 24
  | .H => 8
  | .S => 20
  | .SI => 4
  | .T => 12

theorem reservedZero_iff (f : Format) (w : Word) :
    reservedZero f w = true ↔ w.extractLsb' f.reservedLo f.reservedLen = 0 := by
  cases f <;> exact beq_iff_eq

/-! ### The opcode map (R80) -/

theorem code_injective {o o' : Op} (h : o.code = o'.code) : o = o' :=
  Option.some.inj (by rw [← opOf_code, h, opOf_code])

theorem opcodeMap_eq_of_op_eq :
    ∀ r ∈ opcodeMap, ∀ r' ∈ opcodeMap, r.op = r'.op → r = r' := by decide

theorem exists_row (o : Op) : ∃ r ∈ opcodeMap, r.op = o := by cases o <;> decide

/-- R81: the match value is the opcode alone, and the mask covers exactly the opcode and the reserved
field of the row's format. -/
theorem opcodeMap_columns :
    ∀ r ∈ opcodeMap, r.pattern = r.op.code ++ 0#24 ∧
      ∀ i : Fin 32, r.mask.getLsbD i =
        (decide (24 ≤ i.val) || decide (r.op.format.reservedLo ≤ i.val) &&
          decide (i.val < r.op.format.reservedLo + r.op.format.reservedLen)) := by decide

theorem reservedLo_add_reservedLen_le (f : Format) : f.reservedLo + f.reservedLen ≤ 24 := by
  cases f <;> decide

/-- A row fits a word exactly when the word has its opcode and zero reserved fields (R81). -/
theorem matchesWord_iff {r : OpcodeRow} (hr : r ∈ opcodeMap) (w : Word) :
    r.matchesWord w = true ↔ opField w = r.op.code ∧ reservedZero r.op.format w = true := by
  obtain ⟨hpattern, hmask⟩ := opcodeMap_columns r hr
  have hlen := reservedLo_add_reservedLen_le r.op.format
  rw [OpcodeRow.matchesWord, beq_iff_eq, reservedZero_iff, opField, and_eq_iff_bits,
    extractLsb'_eq_iff_bits, extractLsb'_eq_iff_bits, hpattern]
  generalize r.op.format.reservedLo = lo, r.op.format.reservedLen = len at hmask hlen ⊢
  simp only [hmask, BitVec.getLsbD_append, BitVec.getLsbD_zero]
  constructor
  · intro h
    refine ⟨fun i => ?_, fun i => ?_⟩
    · simpa using h ⟨24 + i, by omega⟩
    · have hi : lo + i.val < 24 := by omega
      simpa [hi, Nat.not_le.2 hi] using h ⟨lo + i, by omega⟩
  · rintro ⟨hop, hres⟩ i
    by_cases hi : i.val < 24
    · by_cases hf : lo ≤ i.val ∧ i.val < lo + len
      · simpa [hi, hf, Nat.add_sub_cancel' hf.1] using hres ⟨i - lo, by omega⟩
      · simp [hi, Nat.not_le.2 hi, ← Bool.decide_and, hf]
    · have hi : 24 ≤ i.val := Nat.not_lt.1 hi
      simpa [hi, Nat.not_lt.2 hi, Nat.add_sub_cancel' hi] using hop ⟨i - 24, by omega⟩

/-- At most one row fits: the opcodes differ. -/
theorem eq_of_matchesWord {r r' : OpcodeRow} (hr : r ∈ opcodeMap) (hr' : r' ∈ opcodeMap) {w : Word}
    (h : r.matchesWord w = true) (h' : r'.matchesWord w = true) : r = r' :=
  opcodeMap_eq_of_op_eq r hr r' hr' (code_injective
    (((matchesWord_iff hr w).1 h).1.symm.trans ((matchesWord_iff hr' w).1 h').1))

/-- The loop of R81 finds the operation whose opcode and reserved fields fit. -/
theorem opByMask_eq_some_iff {w : Word} {o : Op} :
    opByMask w = some o ↔ opField w = o.code ∧ reservedZero o.format w = true := by
  unfold opByMask
  rw [Option.map_eq_some_iff]
  constructor
  · rintro ⟨r, hfind, rfl⟩
    exact (matchesWord_iff (List.mem_of_find?_eq_some hfind) w).1
      (List.find?_some (p := fun r : OpcodeRow => r.matchesWord w) hfind)
  · intro h
    obtain ⟨r, hr, rfl⟩ := exists_row o
    have hfit := (matchesWord_iff hr w).2 h
    have hsome : (opcodeMap.find? fun r : OpcodeRow => r.matchesWord w).isSome :=
      List.find?_isSome.2 ⟨r, hr, hfit⟩
    obtain ⟨r', hfind⟩ := Option.isSome_iff_exists.1 hsome
    have hfit' := List.find?_some (p := fun r : OpcodeRow => r.matchesWord w) hfind
    exact ⟨r', hfind,
      congrArg _ (eq_of_matchesWord (List.mem_of_find?_eq_some hfind) hr hfit' hfit)⟩

theorem opByMask_of_decode {c : Command} {i : Instr} (h : decode c = .ok i) :
    opByMask c.word = some i.op := by
  obtain ⟨o, hop, hr, rfl⟩ := decode_eq_ok_iff.1 h
  rw [op_withOperands]
  exact opByMask_eq_some_iff.2 ⟨hop, hr⟩

/-- A word decodes to nothing exactly when the loop of R81 finds no row. -/
theorem opByMask_eq_none_iff {c : Command} :
    opByMask c.word = none ↔ ∃ e, decode c = .error e := by
  constructor
  · intro h
    cases hd : decode c with
    | error e => exact ⟨e, rfl⟩
    | ok i => rw [opByMask_of_decode hd] at h; cases h
  · rintro ⟨e, he⟩
    refine Option.eq_none_iff_forall_ne_some.2 fun o ho => ?_
    obtain ⟨hop, hr⟩ := opByMask_eq_some_iff.1 ho
    rw [decode_eq_ok_iff.2 ⟨o, hop, hr, rfl⟩] at he
    cases he

namespace Machine

/-- A command that does not decode raises ILLEGAL_COMMAND, before any other check (R81). -/
theorem commandRaises_of_decode_error {c : Command} {e : IllegalEncoding} (h : decode c = .error e)
    (s : State) : CommandRaises c .illegalCommand s := by
  have : runCommand c s = s.raise .illegalCommand := by rw [runCommand, h]
  rw [CommandRaises, this]
  exact raise_raised s .illegalCommand

/-- Settles O2: a row fits by its opcode and reserved field, so the loop and the decoder agree. -/
theorem decodeAgreesWithOpcodeMap : Obligations.DecodeAgreesWithOpcodeMap := by
  refine ⟨fun c => ?_, fun r hr w => matchesWord_iff hr w,
    fun r hr r' hr' w => eq_of_matchesWord hr hr', fun w d s hnone => ?_⟩
  · cases h : decode c with
    | ok i => exact (opByMask_of_decode h).symm
    | error e => exact (opByMask_eq_none_iff.2 ⟨e, h⟩).symm
  · have hfind : opByMask w = none := by
      rw [opByMask, List.find?_eq_none.2 fun r hr => by simp [hnone r hr], Option.map_none]
    obtain ⟨e, he⟩ := opByMask_eq_none_iff (c := ⟨w, d⟩) |>.1 hfind
    exact commandRaises_of_decode_error he s

/-! ### Illegal commands and unused `DATA` (R82) -/

theorem mem_all (o : Op) : o ∈ Op.all := by cases o <;> decide

/-- The numbers of the assigned opcodes, up to order, are the codes of the 15 operations. -/
theorem assigned_perm :
    ((List.range 256).filter fun n => !(opOf (BitVec.ofNat 8 n)).isNone).Perm
      (Op.all.map fun o => o.code.toNat) := by
  refine (List.perm_ext_iff_of_nodup (List.nodup_range.filter _) (by decide)).2 fun n => ?_
  simp only [List.mem_filter, List.mem_range, Bool.not_eq_true', Option.isNone_eq_false_iff,
    Option.isSome_iff_exists, List.mem_map]
  constructor
  · rintro ⟨hn, o, ho⟩
    exact ⟨o, mem_all o, by rw [code_of_opOf ho, BitVec.toNat_ofNat, Nat.mod_eq_of_lt hn]⟩
  · rintro ⟨o, -, rfl⟩
    exact ⟨o.code.isLt, o, by rw [BitVec.ofNat_toNat, BitVec.setWidth_eq, opOf_code]⟩

/-- R82's count: 256 opcodes less the 15 assigned ones. -/
theorem length_unassigned :
    ((List.range 256).filter fun n => (opOf (BitVec.ofNat 8 n)).isNone).length = 241 := by
  have hsum := (List.range 256).length_eq_length_filter_add
    fun n => (opOf (BitVec.ofNat 8 n)).isNone
  rw [assigned_perm.length_eq, List.length_map, List.length_range] at hsum
  exact Nat.add_right_cancel hsum.symm

theorem decode_of_unassigned {c : Command} (h : opOf (opField c.word) = none) :
    decode c = .error .unassignedOpcode := by rw [decode, h]

theorem decode_of_reserved {c : Command} {o : Op} (hop : opField c.word = o.code)
    (hr : reservedZero o.format c.word = false) : decode c = .error .reservedField := by
  simp only [decode, hop, opOf_code, hr, Bool.false_eq_true, if_false]

theorem reservedFieldRaises (o : Op) :
    ReservedFieldRaises o.code o.format.reservedLo o.format.reservedLen := fun w d s hop hres =>
  commandRaises_of_decode_error (c := ⟨w, d⟩)
    (decode_of_reserved hop (Bool.eq_false_iff.2 fun h => hres ((reservedZero_iff _ _).1 h))) s

/-- A command whose operation does not use `DATA` decodes the same for every `DATA`. -/
theorem decode_congr_data {w d : Word} {i : Instr} (h : decode ⟨w, d⟩ = .ok i)
    (hi : i.op.usesData = false) (d' : Word) : decode ⟨w, d'⟩ = .ok i := by
  obtain ⟨o, hop, hr, rfl⟩ := decode_eq_ok_iff.1 h
  rw [op_withOperands] at hi
  exact decode_eq_ok_iff.2 ⟨o, hop, hr, withOperands_congr_data hi _ _ _⟩

/-- Settles O4: the unassigned opcodes are counted, and each row's reserved field is its format's. -/
theorem illegalCommandsAndIgnoredData : Obligations.IllegalCommandsAndIgnoredData :=
  ⟨length_unassigned,
    fun w d s h => commandRaises_of_decode_error (decode_of_unassigned (c := ⟨w, d⟩) h) s,
    reservedFieldRaises .nop, reservedFieldRaises .hinit, reservedFieldRaises .hunit,
    reservedFieldRaises .hload, reservedFieldRaises .hread, reservedFieldRaises .remix,
    reservedFieldRaises .index, reservedFieldRaises .config, reservedFieldRaises .add,
    reservedFieldRaises .test, reservedFieldRaises .rdword, reservedFieldRaises .rdm,
    reservedFieldRaises .rdk, reservedFieldRaises .union, reservedFieldRaises .intersect,
    fun _ _ d' _ h hi => decode_congr_data h hi d'⟩

/-- Settles O5: each word has its row's opcode and zero reserved fields. -/
theorem wordsOfTheSpecDecode : Obligations.WordsOfTheSpecDecode :=
  ⟨rfl, rfl, rfl, rfl, rfl, rfl, rfl⟩

end Machine

end Sys2Proof

/-! ## The command port, edge by edge (R56, R71, R72) -/

namespace Sys2Proof.Machine

/-! ### Whole commands -/

/-- Every command answers a next state (R247). -/
theorem exists_runCommand_eq_next (c : Command) (s : State) : ∃ t, runCommand c s = .next t := by
  rcases runCommand_eq c s with ⟨i, -, hi⟩ | hi
  · exact ⟨_, hi.trans (exec_eq i s)⟩
  · exact ⟨_, hi⟩

theorem runCommand_withPort {c : Command} {s t : State} (h : runCommand c s = .next t) (p : Port) :
    runCommand c { s with port := p } = .next { t with port := p } := by
  obtain ⟨-, -, -, hstream⟩ := keepsMachine_of_runCommand h
  exact (runCommand_withRest c s p s.stream).trans (by rw [h, withRest, ← hstream])

theorem finishCommand_of_next {c : Command} {s t : State} (h : runCommand c s = .next t) :
    finishCommand c s = .next t.completed := by rw [finishCommand, h]

/-- A step with a command at the head of the stream and none running runs it (log entry 1). -/
theorem step_command {s : State} {c : Command} {es : List HostEvent}
    (hp : s.port.phase.isExecuting = false) (hs : s.stream = .command c :: es) :
    step s = finishCommand c (State.accept { s with stream := es } c) := by
  unfold step nextEvent
  split
  · next hexec => rw [hexec] at hp; cases hp
  · rw [hs]

/-- Settles O6: the step is the accepted command, run by its instruction or by the shared raise. -/
theorem stepRunsTheDecodedCommand : Obligations.StepRunsTheDecodedCommand := by
  intro s c es hp hs
  rw [step_command hp hs]
  refine ⟨fun i t hi ht => finishCommand_of_next (by rwa [runCommand, hi]), fun e he => ?_⟩
  obtain ⟨t, ht, herr, hsticky, hT, -, hacc, hresult, hslots, hw, -, -, hstream⟩ :=
    commandRaises_of_decode_error he (State.accept { s with stream := es } c)
  exact ⟨t.completed, finishCommand_of_next ht, herr, hsticky, hT, hacc, hresult, hslots, hw, hstream⟩

/-! ### One edge -/

/-- An edge without `rst` accepts the offered command, completes the running one, or moves the port
alone: then `done` falls, and a command that runs on has one cycle less to go. -/
theorem runEdge_cases {i : PortInputs} {s t : State} (h : runEdge i s = .next t) :
    (∃ c, s.port.phase = .idle ∧ i.offer = some c ∧ t = s.accept c) ∨
      (∃ c u, s.port.phase = .executing c 0 ∧ runCommand c s = .next u ∧
        t = { u with port := { u.port with phase := phaseAfter s, done := true, offered := i.offer } }) ∨
      ∃ p : Port, t = { s with port := p } ∧ p.done = false ∧
        (∀ c, s.port.phase ≠ .executing c 0) ∧
        ∀ c n, p.phase = .executing c n → s.port.phase = .executing c (n + 1) := by
  unfold runEdge at h
  split at h
  · next hphase =>
    split at h
    · next c hoffer => exact .inl ⟨c, hphase, hoffer, (Host.Outcome.next.inj h).symm⟩
    · exact .inr (.inr ⟨_, (Host.Outcome.next.inj h).symm, rfl, by simp [hphase], by simp [hphase]⟩)
  · next c hphase =>
    obtain ⟨u, hu⟩ := exists_runCommand_eq_next c s
    rw [completeEdge, hu] at h
    exact .inr (.inl ⟨c, u, hphase, hu, (Host.Outcome.next.inj h).symm⟩)
  all_goals
    next hphase =>
      exact .inr (.inr ⟨_, (Host.Outcome.next.inj h).symm, rfl, by simp [hphase], by simp [hphase]⟩)

theorem edge_cases {i : PortInputs} {s t : State} (h : edge i s = .next t) :
    (i.rst = true ∧ t = s.resetEdge i.offer) ∨ (i.rst = false ∧ runEdge i s = .next t) := by
  unfold edge at h
  split at h
  · next hr => exact .inl ⟨hr, (Host.Outcome.next.inj h).symm⟩
  · next hr =>
    split at h
    · exact .inr ⟨Bool.eq_false_iff.2 hr, h⟩
    · cases h

theorem isExecuting_eq_false_iff {p : Phase} :
    p.isExecuting = false ↔ ∀ c n, p ≠ .executing c n := by
  cases p <;> simp [Phase.isExecuting]

theorem offer_eq_some_iff {i : PortInputs} {c : Command} :
    i.offer = some c ↔ i.cmdValid = true ∧ c = ⟨i.cmdWord, i.cmdData⟩ := by
  unfold PortInputs.offer
  split <;> simp [*, eq_comm]

/-- Settles O55: only an accepting edge and a cycle of the running command end with a command running. -/
theorem acceptanceNeedsValidAndReady : Obligations.AcceptanceNeedsValidAndReady := by
  intro i s t c n h hphase
  rcases edge_cases h with ⟨-, rfl⟩ | ⟨hr, hrun⟩
  · cases hphase
  · rcases runEdge_cases hrun with ⟨c', hidle, hoffer, rfl⟩ | ⟨c', u, -, -, rfl⟩ | ⟨p, rfl, -, -, hp⟩
    · obtain ⟨rfl, -⟩ := Phase.executing.inj hphase
      obtain ⟨hvalid, hc⟩ := offer_eq_some_iff.1 hoffer
      exact .inr ⟨hr, hvalid, by simp [outputs, hr, hidle], hc⟩
    · exact absurd hphase (isExecuting_eq_false_iff.1 (isExecuting_phaseAfter s) c n)
    · exact .inl ⟨hr, hp c n hphase⟩

/-- Settles O56: `done` rises at the completing edge alone, and every other edge without `rst` moves
only the port. -/
theorem stateChangesOnlyAtCompletion : Obligations.StateChangesOnlyAtCompletion := by
  intro i s t h
  rcases edge_cases h with ⟨hr, rfl⟩ | ⟨hr, hrun⟩
  · simp [outputs, hr]
  · rcases runEdge_cases hrun with ⟨c, hidle, -, rfl⟩ | ⟨c, u, hphase, -, rfl⟩ | ⟨p, rfl, hdone, hp, -⟩
    · exact ⟨by simp [outputs, hidle], fun _ _ => ⟨rfl, rfl, rfl, rfl, rfl⟩⟩
    · exact ⟨by simp [outputs, hr, hphase], fun _ hne => absurd hphase (hne c)⟩
    · exact ⟨by simp [outputs, hdone, hp], fun _ _ => ⟨rfl, rfl, rfl, rfl, rfl⟩⟩

/-! ### From acceptance to completion -/

theorem edge_of_held {i : PortInputs} {s : State} (hr : i.rst = false) (hheld : offerHeld s i = true) :
    edge i s = runEdge i s := by simp [edge, hr, hheld]

/-- An idle port accepts a command that the host offers and has held. -/
theorem edge_accepts {s : State} {c : Command} (hidle : s.port.phase = .idle)
    (hheld : offerHeld s (offerInputs c) = true) : edge (offerInputs c) s = .next (s.accept c) := by
  rw [edge_of_held rfl hheld, runEdge, hidle]; rfl

/-- The port after one more cycle of a running command. -/
def Port.ranOn (p : Port) (c : Command) (n : Nat) (offer : Option Command) : Port :=
  { p with phase := .executing c n, done := false, offered := offer }

theorem edge_runs_on {i : PortInputs} {s : State} {c : Command} {n : Nat} (hr : i.rst = false)
    (hheld : offerHeld s i = true) (hphase : s.port.phase = .executing c (n + 1)) :
    edge i s = .next { s with port := s.port.ranOn c n i.offer } := by
  rw [edge_of_held hr hheld, runEdge, hphase]; rfl

theorem edge_completes {i : PortInputs} {s t : State} {c : Command} (hr : i.rst = false)
    (hheld : offerHeld s i = true) (hphase : s.port.phase = .executing c 0)
    (ht : runCommand c s = .next t) :
    edge i s =
      .next { t with port := { t.port with phase := phaseAfter s, done := true, offered := i.offer } } := by
  simp only [edge_of_held hr hheld, runEdge, hphase, completeEdge, ht]

theorem edges_cons {i : PortInputs} {is : List PortInputs} {s t : State} (h : edge i s = .next t) :
    edges (i :: is) s = edges is t := by rw [edges, h]

/-- Inputs that hold the offers hold the one now pending, and what is offered now afterwards. -/
theorem offerHeld_of_holdsOffers {s : State} {i : PortInputs} {is : List PortInputs}
    (h : HoldsOffers s.port.offered (i :: is)) :
    offerHeld s i = true ∧ HoldsOffers i.offer is := by
  unfold offerHeld
  cases ho : s.port.offered with
  | none => rw [ho] at h; exact ⟨rfl, h⟩
  | some c =>
    rw [ho] at h
    obtain ⟨hi, his⟩ := h
    exact ⟨beq_iff_eq.2 hi, hi ▸ his⟩

theorem holdsOffers_take {o : Option Command} {is : List PortInputs} (h : HoldsOffers o is) (j : Nat) :
    HoldsOffers o (is.take j) := by
  induction is generalizing o j with
  | nil => rwa [List.take_nil]
  | cons i is ih =>
    cases j with
    | zero => rw [List.take_zero]; cases o <;> trivial
    | succ j =>
      rw [List.take_succ_cons]
      cases o with
      | none => exact ih (o := i.offer) h j
      | some c =>
        obtain ⟨hi, his⟩ := h
        exact ⟨hi, ih his j⟩

section Running

variable {c : Command} {s : State} {n : Nat} {is : List PortInputs}

/-- While cycles are left, edges move the port alone and the command keeps running. -/
theorem edges_run_on (hphase : s.port.phase = .executing c n) (hdone : s.port.done = false)
    (hr : ∀ i ∈ is, i.rst = false) (hholds : HoldsOffers s.port.offered is) (hlen : is.length ≤ n) :
    ∃ p : Port, edges is s = .next { s with port := p } ∧
      p.phase = .executing c (n - is.length) ∧ p.done = false := by
  induction is generalizing s n with
  | nil => exact ⟨s.port, rfl, hphase, hdone⟩
  | cons i is ih =>
    obtain ⟨n, rfl⟩ := Nat.exists_eq_add_of_le' (Nat.le_trans (Nat.le_add_left 1 _) hlen)
    obtain ⟨hheld, hrest⟩ := offerHeld_of_holdsOffers hholds
    obtain ⟨hi, his⟩ := List.forall_mem_cons.1 hr
    rw [edges_cons (edge_runs_on hi hheld hphase), List.length_cons, Nat.add_sub_add_right]
    exact ih (s := { s with port := s.port.ranOn c n i.offer }) rfl rfl his hrest
      (Nat.le_of_succ_le_succ hlen)

/-- After the last cycle the state is the whole command's, and `done` is 1. -/
theorem edges_complete {t : State} (hphase : s.port.phase = .executing c n)
    (hr : ∀ i ∈ is, i.rst = false) (hholds : HoldsOffers s.port.offered is)
    (hlen : is.length = n + 1) (ht : runCommand c s = .next t) :
    ∃ p : Port, edges is s = .next { t with port := p } ∧ p.done = true := by
  induction n generalizing s t is with
  | zero =>
    obtain ⟨i, rfl⟩ := List.length_eq_one_iff.1 hlen
    obtain ⟨hheld, -⟩ := offerHeld_of_holdsOffers hholds
    exact ⟨_, edges_cons (edge_completes (hr i List.mem_cons_self) hheld hphase ht), rfl⟩
  | succ n ih =>
    obtain ⟨i, is, rfl⟩ := List.exists_cons_of_length_eq_add_one hlen
    obtain ⟨hheld, hrest⟩ := offerHeld_of_holdsOffers hholds
    obtain ⟨hi, his⟩ := List.forall_mem_cons.1 hr
    rw [edges_cons (edge_runs_on hi hheld hphase)]
    have ht' := runCommand_withPort ht (s.port.ranOn c n i.offer)
    exact ih (t := { t with port := s.port.ranOn c n i.offer }) rfl his hrest
      (Nat.succ.inj hlen) ht'

end Running

/-- Settles O54: the accepted command runs `1 + extraCycles` cycles, each moving the port alone but for
the last, which completes it. -/
theorem portRunsEachCommandToCompletion : Obligations.PortRunsEachCommandToCompletion := by
  intro s c hidle hheld
  refine ⟨by simp [outputs, hidle], Config.extraCycles c s + 1, Nat.le_add_left 1 _,
    fun is hlen hr hholds => ⟨fun j hj => ?_, ?_⟩⟩
  · have hshort : (is.take j).length ≤ Config.extraCycles c s := by
      rw [List.length_take]; omega
    obtain ⟨p, hp, hphase, hdone⟩ := edges_run_on (State.accept_phase s c) rfl
      (fun i hi => hr i (List.mem_of_mem_take hi)) (holdsOffers_take hholds j) hshort
    exact ⟨{ s.accept c with port := p }, (edges_cons (edge_accepts hidle hheld)).trans hp,
      ⟨rfl, rfl, rfl, rfl, rfl⟩, by simp [outputs, hphase], by simp [outputs, hdone]⟩
  · obtain ⟨t, ht⟩ := exists_runCommand_eq_next c s
    obtain ⟨-, -, -, hstream⟩ := keepsMachine_of_runCommand ht
    obtain ⟨p, hp, hdone⟩ := edges_complete (State.accept_phase s c) hr hholds hlen
      (runCommand_withPort ht _)
    exact ⟨t, { t with port := p }, ht, (edges_cons (edge_accepts hidle hheld)).trans hp,
      ⟨rfl, rfl, rfl, rfl, rfl⟩, by simp [outputs, hdone], hstream⟩

end Sys2Proof.Machine

/-! ## The assembler (R84, R85) -/

namespace Sys2Proof

/-! ### Fields of a word as numbers -/

theorem setWidth_half_ofNat {u : Nat} (h : u ≤ 65535) :
    (BitVec.ofNat 16 u).setWidth 32 = BitVec.ofNat 32 u :=
  BitVec.setWidth_ofNat_of_le_of_lt (by decide) (Nat.lt_succ_of_le h)

theorem ofNat_shiftLeft (n k : Nat) : (BitVec.ofNat 32 n) <<< k = BitVec.ofNat 32 (n <<< k) := by
  apply BitVec.eq_of_toNat_eq
  simp [Nat.shiftLeft_eq, Nat.mod_mul_mod]

theorem setWidth_slot_shiftLeft {n : Nat} (h : n ≤ 15) (k : Nat) :
    (BitVec.ofNat 4 n).setWidth 32 <<< k = BitVec.ofNat 32 (n <<< k) := by
  rw [BitVec.setWidth_ofNat_of_le_of_lt (by decide) (Nat.lt_succ_of_le h), ofNat_shiftLeft]

/-- The opcode's part of a command word, as R84's table prints it. -/
def Op.base (o : Op) : Nat := o.code.toNat <<< 24

theorem code_shiftLeft (o : Op) : o.code.setWidth 32 <<< 24 = BitVec.ofNat 32 o.base := by
  cases o <;> decide

section Words

variable (o : Op) {n a b u : Nat}

theorem packH_ofNat (hu : u ≤ 65535) :
    packH o (BitVec.ofNat 16 u) = BitVec.ofNat 32 (o.base ||| u) := by
  rw [packH_eq, code_shiftLeft, setWidth_half_ofNat hu, BitVec.ofNat_or]

theorem packS_ofNat (hn : n ≤ 15) :
    packS o (BitVec.ofNat 4 n) = BitVec.ofNat 32 (o.base ||| n <<< 20) := by
  rw [packS_eq, code_shiftLeft, setWidth_slot_shiftLeft hn, BitVec.ofNat_or]

theorem packSI_ofNat (hn : n ≤ 15) (hu : u ≤ 65535) :
    packSI o (BitVec.ofNat 4 n) (BitVec.ofNat 16 u) =
      BitVec.ofNat 32 (o.base ||| n <<< 20 ||| u) := by
  rw [packSI_eq, code_shiftLeft, setWidth_slot_shiftLeft hn, setWidth_half_ofNat hu,
    BitVec.ofNat_or, BitVec.ofNat_or]

theorem packT_ofNat (hn : n ≤ 15) (ha : a ≤ 15) (hb : b ≤ 15) :
    packT o (BitVec.ofNat 4 n) (BitVec.ofNat 4 a) (BitVec.ofNat 4 b) =
      BitVec.ofNat 32 (o.base ||| n <<< 20 ||| a <<< 16 ||| b <<< 12) := by
  rw [packT_eq, code_shiftLeft, setWidth_slot_shiftLeft hn, setWidth_slot_shiftLeft ha,
    setWidth_slot_shiftLeft hb, BitVec.ofNat_or, BitVec.ofNat_or, BitVec.ofNat_or]

end Words

/-! ### Lines of R84 -/

/-- A line that stands for one instruction gives its command where the operands fit, and nothing
otherwise. -/
theorem assemble_single {l : AsmLine} {i : Instr} {p : Prop} [Decidable p] {w d : Word}
    (hwf : l.wellFormed = true ↔ p) (hi : l.instrs = [i]) (hd : (encode i).data = d)
    (hw : p → (encode i).word = w) :
    assemble l = if p then some [⟨w, d⟩] else none := by
  unfold assemble
  by_cases hp : p
  · rw [if_pos (hwf.2 hp), if_pos hp, hi, ← hw hp, ← hd]; rfl
  · rw [if_neg (mt hwf.1 hp), if_neg hp]

theorem slotFits_iff {n : Nat} : slotFits n = true ↔ n ≤ 15 := decide_eq_true_iff

theorem immFits_iff {n : Nat} : immFits n = true ↔ n ≤ 65535 := decide_eq_true_iff

theorem dataFits_iff {n : Nat} : dataFits n = true ↔ n < 2 ^ 32 := decide_eq_true_iff

theorem bitsFit_iff {n : Int} : bitsFit n = true ↔ -2 ^ 31 ≤ n ∧ n ≤ 2 ^ 31 - 1 := by
  simp [bitsFit]

/-- Settles O8: each line's words are its packed fields, read as numbers. -/
theorem assembledCommandWords : Obligations.AssembledCommandWords := by
  refine ⟨by decide, by decide, by decide, by decide, fun u => ?_, fun v hv => ?_, fun n i => ?_,
    fun n bits k => ?_, fun n => ?_, fun n => ?_, fun n w hw => ?_, fun n => ?_, fun n => ?_,
    fun d a b => ?_, fun d a b => ?_⟩
  · exact assemble_single immFits_iff rfl rfl (packH_ofNat .hunit)
  · have hword : packN .hload = 0x03000000#32 := by decide
    exact (assemble_single (l := .hload v) dataFits_iff rfl rfl fun _ => hword).trans (if_pos hv)
  · exact assemble_single (by simp [AsmLine.wellFormed, slotFits_iff, immFits_iff]) rfl rfl
      fun ⟨hn, hi⟩ => packSI_ofNat .index hn hi
  · exact assemble_single
      (by simp only [AsmLine.wellFormed, Bool.and_eq_true, slotFits_iff, bitsFit_iff, immFits_iff,
        and_assoc]) rfl rfl
      fun ⟨hn, _, hk⟩ => packSI_ofNat .config hn hk
  · exact assemble_single slotFits_iff rfl rfl (packS_ofNat .add)
  · exact assemble_single slotFits_iff rfl rfl (packS_ofNat .test)
  · exact assemble_single
      (by simp only [AsmLine.wellFormed, Bool.and_eq_true, slotFits_iff, dataFits_iff, hw, and_true])
      rfl rfl (packS_ofNat .rdword)
  · exact assemble_single slotFits_iff rfl rfl (packS_ofNat .rdm)
  · exact assemble_single slotFits_iff rfl rfl (packS_ofNat .rdk)
  · exact assemble_single (by simp [AsmLine.wellFormed, slotFits_iff, and_assoc]) rfl rfl
      fun ⟨hd, ha, hb⟩ => packT_ofNat .union hd ha hb
  · exact assemble_single (by simp [AsmLine.wellFormed, slotFits_iff, and_assoc]) rfl rfl
      fun ⟨hd, ha, hb⟩ => packT_ofNat .intersect hd ha hb

end Sys2Proof

namespace Sys2Proof.Machine

/-! ### Texts (R85) -/

/-- An encoded instruction runs as the instruction. -/
theorem runCommand_encode (i : Instr) (s : State) : runCommand (encode i) s = exec i s := by
  rw [runCommand, decodeEncodeRoundTrip i]

theorem runCommands_encode_cons {i : Instr} {s t : State} (h : exec i s = .next t)
    (is : List Instr) :
    runCommands ((i :: is).map encode) s = runCommands (is.map encode) t :=
  runCommands_cons ((runCommand_encode i s).trans h)

theorem acc_after_hunit (u : Half) (s : State) :
    (s.after (.hunit u)).acc = fnvStep s.acc u := rfl

theorem slots_after_hunit (u : Half) (s : State) : (s.after (.hunit u)).slots = s.slots := by
  simp only [State.after, slotsAfter]

/-- HUNITs fold their code units into the accumulator, in order, and keep storage (R104). -/
theorem exists_runCommands_hunits (us : List Half) (s : State) :
    ∃ t, runCommands ((us.map Instr.hunit).map encode) s = .next t ∧
      t.acc = us.foldl fnvStep s.acc ∧ t.slots = s.slots := by
  induction us generalizing s with
  | nil => exact ⟨s, rfl, rfl, rfl⟩
  | cons u us ih =>
    obtain ⟨t, ht, hacc, hslots⟩ := ih (s.after (.hunit u))
    have hexec := exec_of_no_error (reportedError_of_writesAcc (i := .hunit u) rfl s)
    refine ⟨t, ?_, by rw [hacc, acc_after_hunit, List.foldl_cons], by rw [hslots, slots_after_hunit]⟩
    rw [List.map_cons, runCommands_encode_cons hexec, ht]

/-- HSTR leaves the hash of its text's code units, whatever ACC held, and keeps storage (R107). -/
theorem exists_runCommands_hstr (text : List Char) (s : State) :
    ∃ t, runCommands ((hstrInstrs text).map encode) s = .next t ∧ t.acc = hash32 (utf16 text) ∧
      t.slots = s.slots := by
  obtain ⟨t, ht, hacc, hslots⟩ := exists_runCommands_hunits (utf16 text) (s.after .hinit)
  have hexec := exec_of_no_error (reportedError_of_writesAcc (i := .hinit) rfl s)
  refine ⟨t, ?_, hacc, hslots⟩
  rw [hstrInstrs, runCommands_encode_cons hexec, ht]

/-- TEST of a slot that exists and holds a filter succeeds (R154). -/
theorem exec_test_of_usable {n : SlotNo} {s : State} (h : Usable s n) :
    exec (.test n) s = .next (s.after (.test n)) := by
  obtain ⟨hn, hm⟩ := h
  have hslot : s.badSlot n = false := State.badSlot_eq_false.2 hn
  have hconf : (s.slot n).configured = true := configured_iff.2 hm
  simp only [exec, execTest, hslot, hconf, Bool.not_true, Bool.false_eq_true, if_false]
  rfl

theorem result_test_eq_one_iff {n : SlotNo} {s : State} :
    (s.after (.test n)).result = 1#32 ↔
      ∀ p ∈ (s.slot n).positions s.acc, (s.slot n).bit p = true := by
  rw [← List.all_eq_true]
  show (BitVec.ofBool (testOutcome n s)).setWidth 32 = 1#32 ↔ testOutcome n s = true
  cases testOutcome n s <;> decide

/-- Settles O9: HSTR folds the code units from the offset basis, and TEST then reads that hash. -/
theorem assembledTextIsHashedAndTested : Obligations.AssembledTextIsHashedAndTested := by
  refine ⟨fun text s => ?_, fun n text s hn hlen hm => ?_⟩
  · obtain ⟨t, ht⟩ := exists_runCommands_hstr text s
    exact ⟨_, t, rfl, ht⟩
  · obtain ⟨t, ht, hacc, hslots⟩ := exists_runCommands_hstr text s
    have hslot := slot_eq_of_slots_eq hslots (BitVec.ofNat 4 n)
    have hn' : (BitVec.ofNat 4 n).toNat = n := Nat.mod_eq_of_lt (Nat.lt_succ_of_le hn)
    have husable : Usable t (BitVec.ofNat 4 n) := ⟨by rwa [hn', hslots], by rwa [hslot]⟩
    refine ⟨_, t.after (.test (BitVec.ofNat 4 n)), if_pos (slotFits_iff.2 hn), ?_, hslots, ?_⟩
    · rw [AsmLine.instrs, List.map_append, runCommands_append ht,
        runCommands_encode_cons (exec_test_of_usable husable)]
      rfl
    · rw [result_test_eq_one_iff, hslot, hacc]

end Sys2Proof.Machine

/-! ## The hash engine (R100 to R107) -/

namespace Sys2Proof

/-! ### The command words -/

/-- Where `DATA` is not used, exactly the encoded word decodes to an instruction (R82). -/
theorem decode_eq_ok_iff_word {i : Instr} (hi : i.op.usesData = false) (w d : Word) :
    decode ⟨w, d⟩ = .ok i ↔ w = (encode i).word := by
  constructor
  · intro h
    exact (encodeReproducesDecodedWord _ i h).1.symm
  · rintro rfl
    exact Machine.decode_congr_data (decodeEncodeRoundTrip i) hi d

theorem encode_hunit_word (u : Half) :
    (encode (.hunit u)).word = 0x02000000#32 ||| u.setWidth 32 := packH_eq .hunit u

theorem encode_hload_word (v : Word) : (encode (.hload v)).word = 0x03000000#32 :=
  packN_eq .hload

end Sys2Proof

namespace Sys2Proof.Machine

/-! ### The arithmetic of the fold -/

/-- Each shift is the multiply by a power of two, and the six powers add up to the prime (R100). -/
theorem fnvMul_eq_mul (a : Word) : fnvMul a = a * 16777619#32 := by
  have hprime : (16777619#32 : Word) =
      1#32 + BitVec.twoPow 32 1 + BitVec.twoPow 32 4 + BitVec.twoPow 32 7 + BitVec.twoPow 32 8 +
        BitVec.twoPow 32 24 := by decide
  simp only [fnvMul, hprime, BitVec.mul_add, BitVec.mul_one, BitVec.mul_twoPow_eq_shiftLeft]

theorem toNat_fnvMul (a : Word) : (fnvMul a).toNat = a.toNat * 16777619 % 2 ^ 32 := by
  rw [fnvMul_eq_mul, BitVec.toNat_mul]; rfl

theorem toNat_fnvStep (acc : Word) (u : Half) :
    (fnvStep acc u).toNat = (acc.toNat ^^^ u.toNat) * 16777619 % 2 ^ 32 := by
  rw [fnvStep, toNat_fnvMul, BitVec.toNat_xor, BitVec.toNat_setWidth_of_le (by decide)]

/-- Settles O11: the six shifts are the product by the prime, which the exact product reduces to. -/
theorem fnvMultiplyIsMultiplyByPrime : Obligations.FnvMultiplyIsMultiplyByPrime := fun a =>
  ⟨rfl, fnvMul_eq_mul a, toNat_fnvMul a⟩

theorem hash32_concat (key : List Half) (u : Half) :
    hash32 (key ++ [u]) = fnvStep (hash32 key) u := List.foldl_concat ..

/-- Settles O12: the hash is a left fold, so an appended code unit is its last step. -/
theorem hashFoldsCodeUnits : Obligations.HashFoldsCodeUnits := by
  refine ⟨rfl, fun key u => ?_⟩
  have hunit : u.setWidth 32 = (0#16 ++ u : BitVec 32) := BitVec.setWidth_eq_append (by decide)
  rw [hash32_concat, fnvStep, hunit]

/-! ### The commands that raise nothing -/

/-- An instruction with no errors in its table succeeds in every state (R216). -/
theorem exec_of_errorsOf_nil {i : Instr} (h : errorsOf i.op = []) (s : State) :
    exec i s = .next (s.after i) := by
  refine exec_of_no_error ?_
  cases i with
  | nop | hinit | hunit | hload | hread | remix => exact firstError_nil
  | _ => cases h

/-- R214, of every instruction's columns. -/
theorem succeeded_after (i : Instr) (s : State) : Succeeded s (s.after i) :=
  ⟨errOf_after i s, stickyOf_packStatus _ _ _, reserved_packStatus _ _ _,
    rfl, length_slotsAfter i s, rfl, rfl⟩

/-- Settles O13: HINIT has no error, and its columns write ACC alone. -/
theorem hinitStartsAKey : Obligations.HinitStartsAKey :=
  ⟨decode_eq_ok_iff_word (i := .hinit) rfl, reservedFieldRaises .hinit, fun s =>
    ⟨s.after .hinit, exec_of_errorsOf_nil rfl s, rfl, succeeded_after _ s, tOf_after _ s, rfl, rfl⟩⟩

theorem result_after_hunit (u : Half) (s : State) : (s.after (.hunit u)).result = s.result := by
  simp only [State.after, resultAfter]

/-- Settles O14: HUNIT has no error, and its columns write ACC alone, by one step of the fold. -/
theorem hunitFoldsOneCodeUnit : Obligations.HunitFoldsOneCodeUnit := by
  refine ⟨fun u d => ?_, reservedFieldRaises .hunit, fun u s => ?_⟩
  · rw [decode_eq_ok_iff_word rfl, encode_hunit_word]
  · refine ⟨s.after (.hunit u), exec_of_errorsOf_nil rfl s, ?_, succeeded_after _ s, tOf_after _ s,
      result_after_hunit u s, slots_after_hunit u s⟩
    rw [acc_after_hunit, toNat_fnvStep]

/-- Settles O15: HLOAD has no error, and its columns write ACC alone. -/
theorem hloadSetsTheAccumulator : Obligations.HloadSetsTheAccumulator := by
  refine ⟨fun v => ?_, reservedFieldRaises .hload, fun v s =>
    ⟨s.after (.hload v), exec_of_errorsOf_nil rfl s, rfl, succeeded_after _ s, tOf_after _ s, rfl,
      rfl⟩⟩
  rw [← encode_hload_word v]
  exact decodeEncodeRoundTrip (.hload v)

/-- Settles O16: HREAD has no error, and its columns write RESULT alone. -/
theorem hreadReadsTheHash : Obligations.HreadReadsTheHash :=
  ⟨decode_eq_ok_iff_word (i := .hread) rfl, reservedFieldRaises .hread, fun s =>
    ⟨s.after .hread, exec_of_errorsOf_nil rfl s, rfl, rfl, succeeded_after _ s, tOf_after _ s, rfl⟩⟩

/-! ### A streamed key (R107) -/

theorem codeUnits_cons (c : Command) (cs : List Command) :
    codeUnits (c :: cs) = codeUnits [c] ++ codeUnits cs :=
  List.filterMap_append (l := [c])

/-- A command other than HINIT and HLOAD folds its own code units into ACC: HUNIT one, any other none,
whether or not it raises. -/
theorem acc_of_runCommand {c : Command} {s t : State} (h : runCommand c s = .next t)
    (hinit : decode c ≠ .ok .hinit) (hload : ∀ v, decode c ≠ .ok (.hload v)) :
    t.acc = (codeUnits [c]).foldl fnvStep s.acc := by
  unfold runCommand at h
  cases hd : decode c with
  | error e =>
    simp only [hd] at h
    simp [codeUnits, hd, raise_inj h]
  | ok i =>
    simp only [hd] at h
    cases i with
    | hinit => exact absurd hd hinit
    | hload v => exact absurd hd (hload v)
    | hunit u =>
      have ht : t = s.after (.hunit u) :=
        Host.Outcome.next.inj (h.symm.trans (exec_of_errorsOf_nil rfl s))
      simp [codeUnits, hd, ht, acc_after_hunit]
    | _ =>
      obtain ⟨-, hacc, -⟩ := exec_frame h
      simp [codeUnits, hd, hacc rfl]

/-- Commands without HINIT and HLOAD fold their HUNITs' code units into ACC, in order. -/
theorem exists_runCommands_acc_eq_foldl {cs : List Command} (s : State)
    (h : ∀ c ∈ cs, decode c ≠ .ok .hinit ∧ ∀ v, decode c ≠ .ok (.hload v)) :
    ∃ t, runCommands cs s = .next t ∧ t.acc = (codeUnits cs).foldl fnvStep s.acc := by
  induction cs generalizing s with
  | nil => exact ⟨s, rfl, rfl⟩
  | cons c cs ih =>
    obtain ⟨⟨hinit, hload⟩, hrest⟩ := List.forall_mem_cons.1 h
    obtain ⟨u, hu⟩ := exists_runCommand_eq_next c s
    obtain ⟨t, ht, hacc⟩ := ih u hrest
    refine ⟨t, (runCommands_cons hu).trans ht, ?_⟩
    rw [hacc, acc_of_runCommand hu hinit hload, codeUnits_cons c cs, List.foldl_append]

/-- Settles O17: HINIT sets the offset basis, and each later command folds its own code units. -/
theorem streamedKeyIsHashed : Obligations.StreamedKeyIsHashed := by
  intro cs s h
  have hhinit : runCommand ⟨0x01000000#32, 0#32⟩ s = .next (s.after .hinit) :=
    (runCommand_encode .hinit s).trans (exec_of_errorsOf_nil rfl s)
  obtain ⟨t, ht, hacc⟩ := exists_runCommands_acc_eq_foldl (s.after .hinit) h
  exact ⟨t, (runCommands_cons hhinit).trans ht, hacc⟩

end Sys2Proof.Machine

/-! ## The remix unit (R120 to R122) -/

namespace Sys2Proof.Machine

/-! ### The arithmetic of the mix -/

/-- The additive step of the mix on exact numbers: a sum with a multiple, reduced once. -/
theorem toNat_add_shiftLeft (x : Word) (n : Nat) :
    (x + x <<< n).toNat = (x.toNat + x.toNat * 2 ^ n) % 2 ^ 32 := by
  rw [BitVec.toNat_add, BitVec.toNat_shiftLeft, Nat.shiftLeft_eq, Nat.add_mod_mod]

/-- The xor step of the mix on exact numbers: a logical right shift is a floor division. -/
theorem toNat_xor_ushiftRight (x : Word) (n : Nat) :
    (x ^^^ x >>> n).toNat = x.toNat ^^^ (x.toNat / 2 ^ n) := by
  rw [BitVec.toNat_xor, BitVec.toNat_ushiftRight, Nat.shiftRight_eq_div_pow]

/-- Settles O18: each step of the mix is a sum with a left shift or an xor with a logical right shift,
and both are known on exact numbers. -/
theorem mixIsFiveExactSteps : Obligations.MixIsFiveExactSteps := by
  intro x
  simp only [mix, toNat_add_shiftLeft, toNat_xor_ushiftRight]

/-! ### REMIX -/

/-- The second hash of an accumulator is the mix of its product by the prime (R121). -/
theorem remix_eq_mix_mul (a : Word) : remix a = mix (a * 16777619#32) := by
  rw [remix, fnvMul_eq_mul]

@[simp] theorem remix_zero : remix 0#32 = 0#32 := by decide

theorem result_after_remix (s : State) :
    (s.after .remix).result = mix (s.acc * 16777619#32) := remix_eq_mix_mul s.acc

theorem position_zero_zero (m i : Nat) : position 0#32 0#32 m i = 0 := by
  simp [position]

/-- Both hashes of the accumulator 0 are 0, and so is every position made of them (R122). -/
theorem indices_zero (m k : Nat) : indices 0#32 m k = List.replicate k 0 := by
  simp [indices, List.eq_replicate_iff, position_zero_zero]

/-- Settles O19: REMIX has no error, and its columns write RESULT alone, with the second hash of ACC. -/
theorem remixComputesTheSecondHash : Obligations.RemixComputesTheSecondHash :=
  ⟨decode_eq_ok_iff_word (i := .remix) rfl, reservedFieldRaises .remix, fun s =>
    ⟨s.after .remix, exec_of_errorsOf_nil rfl s, result_after_remix s, rfl, succeeded_after _ s,
      tOf_after _ s, rfl⟩,
    remix_zero, by decide, indices_zero⟩

end Sys2Proof.Machine

/-! ## The index generator (R130 to R136) -/

namespace Sys2Proof.Machine

/-! ### One position -/

theorem position_lt (a b : Word) {m : Nat} (hm : 0 < m) (i : Nat) : position a b m i < m :=
  Nat.mod_lt _ hm

theorem position_zero (a b : Word) (m : Nat) : position a b m 0 = a.toNat % m := by
  rw [position, Nat.mul_zero, Nat.add_zero]

/-- The next exact sum is `b` more, and both terms may be reduced first (R132). -/
theorem position_succ (a b : Word) (m i : Nat) :
    position a b m (i + 1) = (position a b m i + b.toNat % m) % m := by
  rw [position, position, Nat.mul_succ, ← Nat.add_assoc, Nat.add_mod]

theorem position_add_mod_lt (a b : Word) {m : Nat} (hm : 0 < m) (i : Nat) :
    position a b m i + b.toNat % m < 2 * m := by
  rw [Nat.two_mul]
  exact Nat.add_lt_add (position_lt a b hm i) (Nat.mod_lt _ hm)

/-- A number below `2m` is reduced by at most one subtraction of `m`. -/
theorem mod_eq_ite_sub {m x : Nat} (h : x < 2 * m) : x % m = if x < m then x else x - m := by
  split
  · next hlt => exact Nat.mod_eq_of_lt hlt
  · next hle => rw [Nat.mod_eq_sub_mod (Nat.not_lt.1 hle), Nat.mod_eq_of_lt (by omega)]

/-- Settles O22: each step adds `b mod m`, and both terms of that sum are below `m`. -/
theorem iterativePositionsAgree : Obligations.IterativePositionsAgree := fun a b m hm =>
  ⟨position_zero a b m, fun i =>
    ⟨position_succ a b m i, position_add_mod_lt a b hm i,
      (position_succ a b m i).trans (mod_eq_ite_sub (position_add_mod_lt a b hm i))⟩⟩

/-! ### The positions of a key -/

theorem length_indices (a : Word) (m k : Nat) : (indices a m k).length = k := by
  rw [indices, List.length_map, List.length_range]

theorem indices_getElem? (a : Word) (m : Nat) {k i : Nat} (hi : i < k) :
    (indices a m k)[i]? = some (position a (remix a) m i) := by
  rw [indices, List.getElem?_map, List.getElem?_range hi, Option.map_some]

theorem lt_of_mem_indices {a : Word} {m k p : Nat} (hm : 0 < m) (hp : p ∈ indices a m k) :
    p < m := by
  obtain ⟨i, -, rfl⟩ := List.mem_map.1 hp
  exact position_lt a (remix a) hm i

/-- A position does not depend on the count (R134). -/
theorem take_indices (a : Word) (m : Nat) {j k : Nat} (h : j ≤ k) :
    (indices a m k).take j = indices a m j := by
  rw [indices, ← List.map_take, List.take_range, Nat.min_eq_left h, indices]

/-- Settles O21: the list maps the numbers below `k`, in order, to their positions. -/
theorem positionsAreKInRange : Obligations.PositionsAreKInRange := fun a m k hm =>
  ⟨length_indices a m k, fun _ hp => lt_of_mem_indices hm hp, fun _ hi => indices_getElem? a m hi,
    fun _ hj => take_indices a m hj⟩

/-! ### The sum on a datapath -/

/-- A datapath of `w` bits holds the exact sum modulo `2^w`, whatever its inputs lost. -/
theorem toNat_datapathSum (w : Nat) (a b : Word) (i : Nat) :
    (a.setWidth w + b.setWidth w * BitVec.ofNat w i).toNat =
      (a.toNat + b.toNat * i) % 2 ^ w := by
  simp only [BitVec.toNat_add, BitVec.toNat_mul, BitVec.toNat_setWidth, BitVec.toNat_ofNat,
    Nat.add_mod, Nat.mul_mod, Nat.mod_mod]

/-- The bound of R136: `2^32 * (1 + 65534) < 2^48`. -/
theorem exactSum_lt (a b : Word) {i : Nat} (hi : i ≤ 65534) :
    a.toNat + b.toNat * i < 2 ^ 48 := by
  have hb : b.toNat * i ≤ 2 ^ 32 * 65534 := Nat.mul_le_mul b.isLt.le hi
  have ha := a.isLt
  omega

/-- Settles O23: 48 bits lose nothing of the sum, and a step's sum is below `2m`. -/
theorem fortyEightBitsHoldTheSum : Obligations.FortyEightBitsHoldTheSum := by
  intro a b m i hi
  have hlt := exactSum_lt a b hi
  refine ⟨hlt, ?_, fun hm hle => ?_⟩
  · rw [toNat_datapathSum, Nat.mod_eq_of_lt hlt, position]
  · exact Nat.lt_of_lt_of_le (position_add_mod_lt a b hm i) (Nat.mul_le_mul_left 2 hle)

/-- Settles O24: 32 bits lose a multiple of `2^32`, and so of `m`. -/
theorem wrappedSumAgreesForPowersOfTwo : Obligations.WrappedSumAgreesForPowersOfTwo := by
  intro a b m i hdvd
  have hsum : (a + b * BitVec.ofNat 32 i).toNat = (a.toNat + b.toNat * i) % 2 ^ 32 := by
    simpa only [BitVec.setWidth_eq] using toNat_datapathSum 32 a b i
  rw [hsum, Nat.mod_mod_of_dvd _ hdvd, position]

/-! ### INDEX -/

/-- The error that R216 reports is raised, and nothing else happens (R212). -/
theorem raises_of_reportedError {i : Instr} {e : ErrorCode} {s : State}
    (h : reportedError i s = e) (he : e ≠ .none) : Raises i e s := by
  subst h
  rw [Raises, exec_of_error he]
  exact raise_raised s _

/-- A slot field, an index and zero reserved bits make up INDEX's command word (R135). -/
theorem encode_index_word (n : SlotNo) (i : Half) :
    (encode (.index n i)).word = 0x10000000#32 ||| n.setWidth 32 <<< 20 ||| i.setWidth 32 :=
  packSI_eq .index n i

/-- INDEX's three checks, in their order (R135, R216). -/
theorem reportedError_index (n : SlotNo) (i : Half) (s : State) :
    reportedError (.index n i) s =
      if s.slots.length ≤ n.toNat then .badSlot
      else if (s.slot n).m = 0#32 then .notConfigured
      else if (s.slot n).k.toNat ≤ i.toNat then .indexRange
      else .none := by
  rw [reportedError_eq, causes, firstError_cons _ (List.isSublist_iff_sublist.1 rfl),
    firstError_cons _ (List.isSublist_iff_sublist.1 rfl),
    firstError_cons _ (List.isSublist_iff_sublist.1 rfl), firstError_nil]
  simp only [decide_eq_true_eq, beq_iff_eq]

theorem toNat_pos_of_configured {x : Slot} (hm : x.m ≠ 0#32) : 0 < x.m.toNat :=
  Nat.pos_of_ne_zero fun h => hm (BitVec.eq_of_toNat_eq h)

/-- A position is below `M`, so RESULT holds all of it (R130, R135). -/
theorem toNat_result_after_index (n : SlotNo) (i : Half) {s : State} (hm : (s.slot n).m ≠ 0#32) :
    (s.after (.index n i)).result.toNat =
      (s.acc.toNat + (remix s.acc).toNat * i.toNat) % (s.slot n).m.toNat := by
  have hlt := position_lt s.acc (remix s.acc) (toNat_pos_of_configured hm) i.toNat
  exact (BitVec.toNat_ofNat _ _).trans (Nat.mod_eq_of_lt (hlt.trans (s.slot n).m.isLt))

/-- Settles O20: the first check that fails is raised, and otherwise INDEX's columns write RESULT
alone. -/
theorem indexReadsAPosition : Obligations.IndexReadsAPosition := by
  refine ⟨fun n i d => ?_, reservedFieldRaises .index, fun n i s =>
    ⟨fun hn => ?_, fun hn hm => ?_, fun hn hm hk => ?_, fun hn hm hk => ?_⟩⟩
  · rw [← encode_index_word]
    exact decode_congr_data (decodeEncodeRoundTrip (.index n i)) rfl d
  · refine raises_of_reportedError ?_ (by decide)
    rw [reportedError_index, if_pos hn]
  · refine raises_of_reportedError ?_ (by decide)
    rw [reportedError_index, if_neg hn.not_ge, if_pos hm]
  · refine raises_of_reportedError ?_ (by decide)
    rw [reportedError_index, if_neg hn.not_ge, if_neg hm, if_pos hk]
  · have hok : reportedError (.index n i) s = .none := by
      rw [reportedError_index, if_neg hn.not_ge, if_neg hm, if_neg hk.not_ge]
    exact ⟨s.after (.index n i), exec_of_no_error hok, toNat_result_after_index n i hm,
      succeeded_after _ s, tOf_after _ s, rfl, rfl⟩

end Sys2Proof.Machine

/-! ## The storage array (R150 to R159) -/

namespace Sys2Proof.Machine

/-! ### A slot that no command rebuilds (R153, R159) -/

/-- A later content `y` of a slot that held `x`: the same `M` and `K`, and no bit cleared. -/
structure Slot.KeepsFilter (x y : Slot) : Prop where
  m : y.m = x.m
  k : y.k = x.k
  bit : ∀ p, x.bit p = true → y.bit p = true

theorem Slot.KeepsFilter.refl (x : Slot) : x.KeepsFilter x := ⟨rfl, rfl, fun _ h => h⟩

theorem Slot.KeepsFilter.trans {x y z : Slot} (hxy : x.KeepsFilter y) (hyz : y.KeepsFilter z) :
    x.KeepsFilter z :=
  ⟨hyz.m.trans hxy.m, hyz.k.trans hxy.k, fun p hp => hyz.bit p (hxy.bit p hp)⟩

theorem Slot.KeepsFilter.positions_eq {x y : Slot} (h : x.KeepsFilter y) (a : Word) :
    y.positions a = x.positions a := by
  simp only [Slot.positions, Slot.bitCount, Slot.hashCount, h.m, h.k]

theorem Slot.bit_setBits_eq_true_iff {x : Slot} {ps : List Nat} {p : Nat} :
    (x.setBits ps).bit p = true ↔ x.bit p = true ∨ p ∈ ps := by
  rw [Slot.bit_setBits, Bool.or_eq_true, decide_eq_true_eq]

theorem Slot.keepsFilter_setBits (x : Slot) (ps : List Nat) : x.KeepsFilter (x.setBits ps) :=
  ⟨Slot.setBits_m x ps, Slot.setBits_k x ps, fun _ hp => Slot.bit_setBits_eq_true_iff.2 (.inl hp)⟩

theorem Slot.setBits_append (x : Slot) (ps qs : List Nat) :
    x.setBits (ps ++ qs) = (x.setBits ps).setBits qs := List.foldl_append

/-- Setting the same bits again changes no word, canonical storage or not. -/
theorem Slot.read_setBits_setBits (x : Slot) (ps : List Nat) (w : Nat) :
    ((x.setBits ps).setBits ps).read w = (x.setBits ps).read w := by
  refine Slot.read_eq_of_bit_eq fun j _ => ?_
  rw [Slot.bit_setBits, Slot.bit_setBits, Bool.or_assoc, Bool.or_self]

/-! ### ADD's storage (R152) -/

/-- ADD's two checks, in their order (R152, R216). -/
theorem reportedError_add (n : SlotNo) (s : State) :
    reportedError (.add n) s =
      if s.slots.length ≤ n.toNat then .badSlot
      else if (s.slot n).m = 0#32 then .notConfigured
      else .none := by
  rw [reportedError_eq, causes, firstError_cons _ (List.isSublist_iff_sublist.1 rfl),
    firstError_cons _ (List.isSublist_iff_sublist.1 rfl), firstError_nil]
  simp only [decide_eq_true_eq, beq_iff_eq]

theorem reportedError_add_of_usable {n : SlotNo} {s : State} (h : Usable s n) :
    reportedError (.add n) s = .none := by
  obtain ⟨hn, hm⟩ := h
  rw [reportedError_add, if_neg hn.not_ge, if_neg hm]

/-- A slot with a nonzero `M` is one of the machine's slots: one that does not exist reads as empty. -/
theorem usable_of_m_ne_zero {n : SlotNo} {s : State} (hm : (s.slot n).m ≠ 0#32) : Usable s n :=
  ⟨Nat.lt_of_not_le fun hn => hm (by rw [State.slot_of_length_le hn]; rfl), hm⟩

/-- An ADD that can succeed sets its key's bits in its slot; any other ADD keeps every slot. -/
theorem slot_of_exec_add {n : SlotNo} {s t : State} (h : exec (.add n) s = .next t) (j : SlotNo) :
    t.slot j =
      if j = n ∧ Usable s n then (s.slot n).setBits ((s.slot n).positions s.acc) else s.slot j := by
  by_cases hj : j = n
  · subst hj
    rcases exec_inv h with ⟨he, rfl⟩ | ⟨he, rfl⟩
    · rw [if_neg fun hu => he (reportedError_add_of_usable hu.2)]
      rfl
    · obtain ⟨hu, -⟩ := effect_after he
      rw [if_pos ⟨rfl, hu⟩, slot_after_add hu.1]
  · obtain ⟨-, -, -, -, hslot⟩ := exec_frame h
    rw [if_neg fun hu => hj hu.1]
    exact hslot j rfl fun hi => hj (Instr.add.inj hi).symm

/-! ### Commands and the slots they do not rebuild (R159) -/

/-- A command raised ILLEGAL_COMMAND, or its instruction was executed (R81). -/
theorem runCommand_inv {c : Command} {s t : State} (h : runCommand c s = .next t) :
    (∃ e, decode c = .error e ∧ t = s.raised .illegalCommand) ∨
      ∃ i, decode c = .ok i ∧ exec i s = .next t := by
  unfold runCommand at h
  split at h
  · next i hi => exact .inr ⟨i, hi, h⟩
  · next e he => exact .inl ⟨e, he, raise_inj h⟩

theorem keepsFilter_of_exec {i : Instr} {n : SlotNo} {s t : State} (h : exec i s = .next t)
    (hr : rebuildsSlot n i = false) : (s.slot n).KeepsFilter (t.slot n) := by
  by_cases hi : i = .add n
  · subst hi
    rw [slot_of_exec_add h]
    split
    · exact Slot.keepsFilter_setBits _ _
    · exact .refl _
  · obtain ⟨-, -, -, -, hslot⟩ := exec_frame h
    rw [hslot n hr hi]
    exact .refl _

section NotRebuilt

variable {c : Command} {n : SlotNo} {s t : State} (h : runCommand c s = .next t)
  (hr : ∀ i, decode c = .ok i → rebuildsSlot n i = false)

include h hr

theorem keepsFilter_of_runCommand : (s.slot n).KeepsFilter (t.slot n) := by
  rcases runCommand_inv h with ⟨e, -, rfl⟩ | ⟨i, hi, hexec⟩
  · exact .refl _
  · exact keepsFilter_of_exec hexec (hr i hi)

theorem slot_of_runCommand (hadd : decode c ≠ .ok (.add n)) : t.slot n = s.slot n := by
  rcases runCommand_inv h with ⟨e, -, rfl⟩ | ⟨i, hi, hexec⟩
  · rfl
  · obtain ⟨-, -, -, -, hslot⟩ := exec_frame hexec
    exact hslot n (hr i hi) fun heq => hadd (heq ▸ hi)

end NotRebuilt

theorem keepsFilter_of_runCommands {cs : List Command} {n : SlotNo} {s u : State}
    (h : runCommands cs s = .next u)
    (hr : ∀ c ∈ cs, ∀ i, decode c = .ok i → rebuildsSlot n i = false) :
    (s.slot n).KeepsFilter (u.slot n) := by
  induction cs generalizing s with
  | nil =>
    cases Host.Outcome.next.inj h
    exact .refl _
  | cons c cs ih =>
    obtain ⟨hc, hcs⟩ := List.forall_mem_cons.1 hr
    obtain ⟨t, ht, hu⟩ := exists_of_runCommands_cons h
    exact (keepsFilter_of_runCommand ht hc).trans (ih hu hcs)

/-- Settles O33: every command keeps the filter of a slot that it does not rebuild, and an ADD to the
slot is the only one of them that writes it. -/
theorem onlyBuildersClearBits : Obligations.OnlyBuildersClearBits := by
  intro c n s t h hr
  obtain ⟨hm, hk, hbit⟩ := keepsFilter_of_runCommand h hr
  exact ⟨hm, hk, hbit, slot_of_runCommand h hr⟩

/-! ### Adding and testing keys (R153, R155) -/

/-- A key loaded and added: the slot's words then have its positions set as well. -/
theorem exists_runCommands_hload_add {n : SlotNo} {s : State} (h : Usable s n) (a : Word) :
    ∃ t, runCommands [encode (.hload a), encode (.add n)] s = .next t ∧
      t.slot n = (s.slot n).setBits ((s.slot n).positions a) := by
  have hload : runCommand (encode (.hload a)) s = .next (s.after (.hload a)) :=
    (runCommand_encode _ s).trans (exec_of_errorsOf_nil rfl s)
  have hu : Usable (s.after (.hload a)) n := h
  have hadd := (runCommand_encode _ _).trans (exec_of_no_error (reportedError_add_of_usable hu))
  exact ⟨_, (runCommands_cons hload).trans (runCommands_cons hadd), slot_after_add hu.1⟩

/-- Any sequence of ADDs sets all its keys' positions, one key's after the other's. -/
theorem exists_runCommands_adds {n : SlotNo} (keys : List Word) {s : State} (h : Usable s n) :
    ∃ t, runCommands (keys.flatMap fun a => [encode (.hload a), encode (.add n)]) s = .next t ∧
      t.slot n = (s.slot n).setBits (keys.flatMap (s.slot n).positions) := by
  induction keys generalizing s with
  | nil => exact ⟨s, rfl, rfl⟩
  | cons a keys ih =>
    obtain ⟨t, ht, hslot⟩ := exists_runCommands_hload_add h a
    have hkeep := Slot.keepsFilter_setBits (s.slot n) ((s.slot n).positions a)
    rw [← hslot] at hkeep
    obtain ⟨u, hu, hslots⟩ := ih (usable_of_m_ne_zero (hkeep.m ▸ h.2))
    refine ⟨u, (runCommands_append ht).trans hu, ?_⟩
    rw [hslots, funext hkeep.positions_eq, hslot, List.flatMap_cons, Slot.setBits_append]

theorem read_of_add_add {n : SlotNo} {s t u : State} (hs : exec (.add n) s = .next t)
    (ht : exec (.add n) t = .next u) (j : SlotNo) (w : Nat) :
    (u.slot j).read w = (t.slot j).read w := by
  rw [slot_of_exec_add ht j]
  split
  · next hj =>
    obtain ⟨rfl, hu⟩ := hj
    have hkeep := keepsFilter_of_exec (n := j) hs rfl
    obtain ⟨-, hacc, -⟩ := exec_frame hs
    have hslot : t.slot j = (s.slot j).setBits ((s.slot j).positions s.acc) := by
      rw [slot_of_exec_add hs, if_pos ⟨rfl, usable_of_m_ne_zero (hkeep.m ▸ hu.2)⟩]
    rw [hkeep.positions_eq, hacc rfl, hslot, Slot.read_setBits_setBits]
  · rfl

/-- Settles O27: ADD only sets bits, its key's own positions, which are the same the second time; so a
sequence of ADDs sets those of all its keys, by induction on the keys. -/
theorem addsAccumulateKeyPatterns : Obligations.AddsAccumulateKeyPatterns := by
  refine ⟨fun n j s t h => ?_, fun n j s t u hs ht => read_of_add_add hs ht j,
    fun n keys s hn hm => ?_⟩
  · obtain ⟨hm, hk, hbit⟩ := keepsFilter_of_exec (n := j) h rfl
    exact ⟨hm, hk, hbit⟩
  · obtain ⟨t, ht, hslot⟩ := exists_runCommands_adds keys ⟨hn, hm⟩
    refine ⟨t, ht, fun p => ?_⟩
    rw [hslot, Slot.bit_setBits_eq_true_iff, List.mem_flatMap]
    rfl

theorem testOutcome_eq_true_iff {n : SlotNo} {s : State} :
    testOutcome n s = true ↔ ∀ p ∈ (s.slot n).positions s.acc, (s.slot n).bit p = true :=
  List.all_eq_true

/-- An ADD that succeeded leaves a filter that holds its key. -/
theorem usable_and_bits_of_add {n : SlotNo} {s t : State} (h : exec (.add n) s = .next t)
    (hok : errOf t.status = 0#4) :
    Usable t n ∧ ∀ p ∈ (t.slot n).positions s.acc, (t.slot n).bit p = true := by
  have hkeep := keepsFilter_of_exec (n := n) h rfl
  rcases exec_inv h with ⟨he, rfl⟩ | ⟨he, rfl⟩
  · exact absurd ((code_eq_zero_iff _).1 ((errOf_raised _ s).symm.trans hok)) he
  · obtain ⟨⟨hn, hm⟩, -⟩ := effect_after he
    refine ⟨usable_of_m_ne_zero (hkeep.m.symm ▸ hm), fun p hp => ?_⟩
    rw [hkeep.positions_eq] at hp
    rw [slot_after_add hn]
    exact Slot.bit_setBits_eq_true_iff.2 (.inr hp)

/-- Settles O29: ADD sets the key's positions, and while no command rebuilds the slot its positions
stay the same ones and stay set. -/
theorem noFalseNegatives : Obligations.NoFalseNegatives := by
  intro n s t u cs hadd hok hcs hu hacc
  obtain ⟨⟨-, hm⟩, hbits⟩ := usable_and_bits_of_add hadd hok
  have hkeep := keepsFilter_of_runCommands hu hcs
  have hset : ∀ p ∈ (u.slot n).positions u.acc, (u.slot n).bit p = true := fun p hp => by
    rw [hkeep.positions_eq, hacc] at hp
    exact hkeep.bit p (hbits p hp)
  have htest := exec_test_of_usable (usable_of_m_ne_zero (hkeep.m.symm ▸ hm))
  exact ⟨_, htest, result_test_eq_one_iff.2 hset,
    (tOf_after _ u).trans (testOutcome_eq_true_iff.2 hset), errOf_after _ u⟩

end Sys2Proof.Machine

/-! ## The storage commands one by one (R150 to R158) -/

namespace Sys2Proof.Machine

/-! ### Command words -/

/-- Where `DATA` is not used, the encoded word decodes to its instruction whatever `DATA` is (R82). -/
theorem decode_of_encode_word {i : Instr} {w : Word} (hw : (encode i).word = w)
    (hi : i.op.usesData = false) (d : Word) : decode ⟨w, d⟩ = .ok i :=
  (decode_eq_ok_iff_word hi w d).2 hw.symm

theorem encode_config (n : SlotNo) (k : Half) (d : Word) :
    encode (.config n k d) =
      ⟨0x20000000#32 ||| n.setWidth 32 <<< 20 ||| k.setWidth 32, d⟩ :=
  congrArg (Command.mk · d) (packSI_eq .config n k)

theorem encode_rdword (n : SlotNo) (d : Word) :
    encode (.rdword n d) = ⟨0x23000000#32 ||| n.setWidth 32 <<< 20, d⟩ :=
  congrArg (Command.mk · d) (packS_eq .rdword n)

/-! ### Checks, in their order (R216) -/

/-- CONFIG's three checks (R150). -/
theorem reportedError_config (n : SlotNo) (k : Half) (d : Word) (s : State) :
    reportedError (.config n k d) s =
      if s.slots.length ≤ n.toNat then .badSlot
      else if d.toInt ≤ 0 ∨ k = 0#16 then .invalidArgument
      else if 32 * s.wMax < roundUp32 d.toInt.toNat then .capacity
      else .none := by
  rw [reportedError_eq, causes, firstError_cons _ (List.isSublist_iff_sublist.1 rfl),
    firstError_cons _ (List.isSublist_iff_sublist.1 rfl),
    firstError_cons _ (List.isSublist_iff_sublist.1 rfl), firstError_nil]
  simp only [decide_eq_true_eq, Bool.or_eq_true, beq_iff_eq]

/-- TEST's two checks are ADD's (R154). -/
theorem reportedError_test (n : SlotNo) (s : State) :
    reportedError (.test n) s =
      if s.slots.length ≤ n.toNat then .badSlot
      else if (s.slot n).m = 0#32 then .notConfigured
      else .none := reportedError_add n s

/-- RDWORD's three checks (R156). -/
theorem reportedError_rdword (n : SlotNo) (w : Word) (s : State) :
    reportedError (.rdword n w) s =
      if s.slots.length ≤ n.toNat then .badSlot
      else if (s.slot n).m = 0#32 then .notConfigured
      else if (s.slot n).m.toNat / 32 ≤ w.toNat then .indexRange
      else .none := by
  rw [reportedError_eq, causes, firstError_cons _ (List.isSublist_iff_sublist.1 rfl),
    firstError_cons _ (List.isSublist_iff_sublist.1 rfl),
    firstError_cons _ (List.isSublist_iff_sublist.1 rfl), firstError_nil]
  simp only [decide_eq_true_eq, beq_iff_eq]

/-- RDM's one check (R157). -/
theorem reportedError_rdm (n : SlotNo) (s : State) :
    reportedError (.rdm n) s = if s.slots.length ≤ n.toNat then .badSlot else .none := by
  rw [reportedError_eq, causes, firstError_cons _ (List.isSublist_iff_sublist.1 rfl),
    firstError_nil]
  simp only [decide_eq_true_eq]

/-- RDK's one check is RDM's (R158). -/
theorem reportedError_rdk (n : SlotNo) (s : State) :
    reportedError (.rdk n) s = if s.slots.length ≤ n.toNat then .badSlot else .none :=
  reportedError_rdm n s

/-- An instruction that checks first that its slot exists and second that it holds a filter raises
BAD_SLOT, and of a slot that exists, NOT_CONFIGURED. -/
theorem raises_of_not_usable {i : Instr} {e : ErrorCode} {n : SlotNo} {s : State}
    (h : reportedError i s =
      if s.slots.length ≤ n.toNat then .badSlot
      else if (s.slot n).m = 0#32 then .notConfigured
      else e) :
    (s.slots.length ≤ n.toNat → Raises i .badSlot s) ∧
      (n.toNat < s.slots.length → (s.slot n).m = 0#32 → Raises i .notConfigured s) := by
  refine ⟨fun hn => ?_, fun hn hm => ?_⟩
  · exact raises_of_reportedError (h.trans (if_pos hn)) (by decide)
  · exact raises_of_reportedError (h.trans (by rw [if_neg hn.not_ge, if_pos hm])) (by decide)

/-! ### RDM and RDK (R157, R158) -/

/-- Settles O31: RDM checks the slot field only, and its columns write RESULT alone. -/
theorem rdmReadsTheBitCount : Obligations.RdmReadsTheBitCount := by
  refine ⟨fun n => decode_of_encode_word (packS_eq .rdm n) rfl, reservedFieldRaises .rdm,
    fun n s => ⟨fun hn => ?_, fun hn => ?_⟩⟩
  · exact raises_of_reportedError ((reportedError_rdm n s).trans (if_pos hn)) (by decide)
  · have hok := (reportedError_rdm n s).trans (if_neg hn.not_ge)
    exact ⟨s.after (.rdm n), exec_of_no_error hok, rfl, succeeded_after _ s, tOf_after _ s, rfl, rfl⟩

/-- Settles O32: RDK checks the slot field only, and `K` zero-extended is the same number. -/
theorem rdkReadsTheHashCount : Obligations.RdkReadsTheHashCount := by
  refine ⟨fun n => decode_of_encode_word (packS_eq .rdk n) rfl, reservedFieldRaises .rdk,
    fun n s => ⟨fun hn => ?_, fun hn => ?_⟩⟩
  · exact raises_of_reportedError ((reportedError_rdk n s).trans (if_pos hn)) (by decide)
  · have hok := (reportedError_rdk n s).trans (if_neg hn.not_ge)
    have hresult : (s.after (.rdk n)).result.toNat = (s.slot n).k.toNat :=
      BitVec.toNat_setWidth_of_le (by decide)
    exact ⟨s.after (.rdk n), exec_of_no_error hok, hresult, succeeded_after _ s, tOf_after _ s, rfl,
      rfl⟩

/-! ### CONFIG (R150, R151) -/

theorem leastMultipleOf32_roundUp32 {bits : Int} (h : 0 < bits) :
    LeastMultipleOf32 bits (roundUp32 bits.toNat) := by
  have hle := le_roundUp32 bits.toNat
  refine ⟨roundUp32_mod _, by omega, fun m hm hbits => ?_⟩
  unfold roundUp32
  omega

/-- A rounded bit count is at most `2^31`, so `M` holds all of it. -/
theorem toNat_roundUp32 (d : Word) :
    (BitVec.ofNat 32 (roundUp32 d.toInt.toNat)).toNat = roundUp32 d.toInt.toNat := by
  have hd := d.toInt_lt
  have hlt : roundUp32 d.toInt.toNat < 2 ^ 32 := by
    unfold roundUp32
    omega
  exact (BitVec.toNat_ofNat _ _).trans (Nat.mod_eq_of_lt hlt)

theorem slot_after_config {n : SlotNo} {s : State} (hn : n.toNat < s.slots.length) (k : Half)
    (d : Word) :
    (s.after (.config n k d)).slot n =
      (s.slot n).build (roundUp32 d.toInt.toNat) k (fun _ => 0#32) :=
  State.slot_setSlot_self _ hn

/-- Settles O25: the first check that fails is raised, and otherwise CONFIG builds a filter of zero
words in its slot. -/
theorem configConstructsAFilter : Obligations.ConfigConstructsAFilter := by
  refine ⟨fun n k d => ?_, reservedFieldRaises .config, fun n k d s =>
    ⟨fun hn => ?_, fun hn harg => ?_, fun hn hd hk => ?_⟩⟩
  · rw [← encode_config]
    exact decodeEncodeRoundTrip _
  · exact raises_of_reportedError ((reportedError_config n k d s).trans (if_pos hn)) (by decide)
  · refine raises_of_reportedError ?_ (by decide)
    rw [reportedError_config, if_neg hn.not_ge, if_pos harg]
  · have harg : ¬(d.toInt ≤ 0 ∨ k = 0#16) := not_or.2 ⟨hd.not_ge, hk⟩
    refine ⟨_, leastMultipleOf32_roundUp32 hd, fun hcap => ?_, fun hcap => ?_⟩
    · refine raises_of_reportedError ?_ (by decide)
      rw [reportedError_config, if_neg hn.not_ge, if_neg harg, if_pos hcap]
    · have hok : reportedError (.config n k d) s = .none := by
        rw [reportedError_config, if_neg hn.not_ge, if_neg harg, if_neg hcap.not_gt]
      have hslot := slot_after_config hn k d
      refine ⟨s.after (.config n k d), exec_of_no_error hok, ?_, ?_, fun w hw => ?_, fun w hw => ?_,
        State.slots_setSlot_ne s n _, succeeded_after _ s, tOf_after _ s, rfl, rfl⟩
      · rw [hslot, Slot.build_m, toNat_roundUp32]
      · rw [hslot, Slot.build_k]
      · rw [hslot, Slot.read_build, if_pos hw]
      · rw [hslot, Slot.read_build, if_neg hw.not_gt]

/-! ### ADD (R152) -/

/-- Settles O26: the first check that fails is raised, and otherwise ADD sets its key's positions in
its slot. -/
theorem addSetsTheKeysBits : Obligations.AddSetsTheKeysBits := by
  refine ⟨fun n => decode_of_encode_word (packS_eq .add n) rfl, reservedFieldRaises .add,
    fun n s => ?_⟩
  obtain ⟨hbad, hconf⟩ := raises_of_not_usable (reportedError_add n s)
  refine ⟨hbad, hconf, fun hn hm => ?_⟩
  have hslot := slot_after_add hn
  refine ⟨s.after (.add n), exec_of_no_error (reportedError_add_of_usable ⟨hn, hm⟩), fun p => ?_,
    fun w hw => ?_, ?_, ?_, State.slots_setSlot_ne s n _, succeeded_after _ s, tOf_after _ s, rfl,
    rfl⟩
  · rw [hslot, Slot.bit_setBits_eq_true_iff, Slot.mem_positions]
    rfl
  · rw [hslot]
    refine Slot.read_setBits_ne _ _ w fun p hp => ?_
    obtain ⟨i, hi, rfl⟩ := Slot.mem_positions.1 hp
    exact hw i hi
  · rw [hslot, Slot.setBits_m]
  · rw [hslot, Slot.setBits_k]

/-! ### TEST (R154) -/

/-- TEST's outcome is 1 exactly when all `K` positions are set (R130, R154). -/
theorem testOutcome_eq_true_iff_position {n : SlotNo} {s : State} :
    testOutcome n s = true ↔ ∀ i, i < (s.slot n).k.toNat →
      (s.slot n).bit (position s.acc (remix s.acc) (s.slot n).m.toNat i) = true := by
  rw [testOutcome_eq_true_iff]
  refine ⟨fun h i hi => h _ (Slot.mem_positions.2 ⟨i, hi, rfl⟩), fun h p hp => ?_⟩
  obtain ⟨i, hi, rfl⟩ := Slot.mem_positions.1 hp
  exact h i hi

theorem setWidth_ofBool (b : Bool) :
    (BitVec.ofBool b).setWidth 32 = if b then 1#32 else 0#32 := by
  cases b <;> rfl

/-- Settles O28: the first check that fails is raised, and otherwise TEST's columns write its outcome
to RESULT and T alone. -/
theorem testChecksTheKeysBits : Obligations.TestChecksTheKeysBits := by
  refine ⟨fun n => decode_of_encode_word (packS_eq .test n) rfl, reservedFieldRaises .test,
    fun n s => ?_⟩
  obtain ⟨hbad, hconf⟩ := raises_of_not_usable (reportedError_test n s)
  refine ⟨hbad, hconf, fun hn hm => ⟨s.after (.test n), exec_test_of_usable ⟨hn, hm⟩, ?_, ?_,
    succeeded_after _ s, rfl, rfl⟩⟩
  · rw [tOf_after]
    exact testOutcome_eq_true_iff_position
  · rw [tOf_after]
    exact setWidth_ofBool _

/-! ### RDWORD (R156) -/

/-- Bit `j` of word `w` is position `32*w + j` (R51). -/
theorem Slot.bit_of_word (x : Slot) (w : Nat) {j : Nat} (hj : j < 32) :
    x.bit (32 * w + j) = (x.read w).getLsbD j := by
  have hdiv : (32 * w + j) / 32 = w := by omega
  have hmod : (32 * w + j) % 32 = j := by omega
  rw [Slot.bit_eq, hdiv, hmod]

/-- Settles O30: the first check that fails is raised, and otherwise RDWORD's columns write the word to
RESULT alone. -/
theorem rdwordReadsAStorageWord : Obligations.RdwordReadsAStorageWord := by
  refine ⟨fun n d => ?_, reservedFieldRaises .rdword, fun n w s => ?_⟩
  · rw [← encode_rdword]
    exact decodeEncodeRoundTrip _
  obtain ⟨hbad, hconf⟩ := raises_of_not_usable (reportedError_rdword n w s)
  refine ⟨hbad, hconf, fun hn hm hw => ?_, fun hn hm hw => ?_⟩
  · refine raises_of_reportedError ?_ (by decide)
    rw [reportedError_rdword, if_neg hn.not_ge, if_neg hm, if_pos hw]
  · have hok : reportedError (.rdword n w) s = .none := by
      rw [reportedError_rdword, if_neg hn.not_ge, if_neg hm, if_neg hw.not_ge]
    exact ⟨s.after (.rdword n w), exec_of_no_error hok, rfl,
      fun j hj => (Slot.bit_of_word _ _ hj).symm, succeeded_after _ s, tOf_after _ s, rfl, rfl⟩

end Sys2Proof.Machine

/-! ## UNION and INTERSECT (R180 to R185) -/

namespace Sys2Proof.Machine

/-! ### Combining in place, word by word (R183) -/

/-- One turn of the loop that combines in place: the source words as they stand, into slot `d`. -/
def combineWord (f : Word → Word → Word) (d a b : SlotNo) (s : State) (w : Nat) : State :=
  s.setSlot d ((s.slot d).write w (f ((s.slot a).read w) ((s.slot b).read w)))

section InPlace

variable {f : Word → Word → Word} {d a b : SlotNo} {s : State}

theorem length_slots_combineWord (w : Nat) :
    (combineWord f d a b s w).slots.length = s.slots.length := List.length_set

theorem read_combineWord (hd : d.toNat < s.slots.length) (j : SlotNo) (u w : Nat) :
    ((combineWord f d a b s u).slot j).read w =
      if j = d ∧ w = u then f ((s.slot a).read u) ((s.slot b).read u) else (s.slot j).read w := by
  rw [combineWord]
  by_cases hj : j = d
  · subst hj
    rw [State.slot_setSlot_self _ hd, Slot.read_write]
    simp only [true_and]
  · rw [State.slot_setSlot_ne _ hj, if_neg fun h => hj h.1]

theorem length_slots_combineWords (n : Nat) :
    ((List.range n).foldl (combineWord f d a b) s).slots.length = s.slots.length := by
  induction n with
  | zero => rfl
  | succ n ih => rw [List.range_succ, List.foldl_concat, length_slots_combineWord, ih]

/-- Turn `n` writes only the words numbered `n`, so the later turns still find the sources' old words. -/
theorem read_combineWords (hd : d.toNat < s.slots.length) (n : Nat) (j : SlotNo) (w : Nat) :
    (((List.range n).foldl (combineWord f d a b) s).slot j).read w =
      if j = d ∧ w < n then f ((s.slot a).read w) ((s.slot b).read w) else (s.slot j).read w := by
  induction n generalizing j w with
  | zero => rw [if_neg fun h => Nat.not_lt_zero w h.2]; rfl
  | succ n ih =>
    have hsource (x : SlotNo) :
        (((List.range n).foldl (combineWord f d a b) s).slot x).read n = (s.slot x).read n := by
      rw [ih, if_neg fun h => Nat.lt_irrefl n h.2]
    rw [List.range_succ, List.foldl_concat,
      read_combineWord (by rwa [length_slots_combineWords]), hsource, hsource, ih]
    by_cases hw : w = n
    · subst hw
      simp
    · have hlt : w < n + 1 ↔ w < n := by omega
      simp [hw, hlt]

end InPlace

/-- Settles O37: each turn of the loop reads and writes words of its own number only, by induction on
the number of turns. -/
theorem inPlaceCombineAgrees : Obligations.InPlaceCombineAgrees :=
  fun _ _ _ _ j _ n w hd => read_combineWords hd n j w

/-! ### The filter built (R180, R181) -/

section Combined

variable (f : Word → Word → Word) (d a b : SlotNo) (s : State)

@[simp] theorem combined_m : (combined f d a b s).m = (s.slot a).m := by
  rw [combined, Slot.build_m, Slot.bitCount, BitVec.ofNat_toNat, BitVec.setWidth_eq]

@[simp] theorem combined_k : (combined f d a b s).k = (s.slot a).k := rfl

theorem read_combined (w : Nat) :
    (combined f d a b s).read w =
      if w < (s.slot a).m.toNat / 32 then f ((s.slot a).read w) ((s.slot b).read w)
      else (s.slot d).read w := Slot.read_build _ _ _ _ w

/-- The result has the positions of the first source (R182). -/
theorem positions_combined (key : Word) :
    (combined f d a b s).positions key = (s.slot a).positions key := by
  simp only [Slot.positions, Slot.bitCount, Slot.hashCount, combined_m, combined_k]

end Combined

/-! ### The two instructions as one -/

/-- The instruction is UNION or INTERSECT; `f` is its word operation, and `g` what that does to each
bit of a word. -/
inductive Combines (d a b : SlotNo) : Instr → (Word → Word → Word) → (Bool → Bool → Bool) → Prop where
  | union : Combines d a b (.union d a b) (fun x y => x ||| y) or
  | intersect : Combines d a b (.intersect d a b) (fun x y => x &&& y) and

namespace Combines

variable {d a b : SlotNo} {i : Instr} {f : Word → Word → Word} {g : Bool → Bool → Bool}
  {s : State}

theorem getLsbD (h : Combines d a b i f g) (x y : Word) (j : Nat) :
    (f x y).getLsbD j = g (x.getLsbD j) (y.getLsbD j) := by
  cases h with
  | union => exact BitVec.getLsbD_or
  | intersect => exact BitVec.getLsbD_and

/-- The three checks, in their order (R180, R181, R216). -/
theorem reportedError_eq (h : Combines d a b i f g) (s : State) :
    reportedError i s =
      if s.slots.length ≤ d.toNat ∨ s.slots.length ≤ a.toNat ∨ s.slots.length ≤ b.toNat then .badSlot
      else if (s.slot a).m = 0#32 ∨ (s.slot b).m = 0#32 then .notConfigured
      else if (s.slot a).m ≠ (s.slot b).m then .incompatibleFilter
      else .none := by
  have hcauses : causes s i = causes s (.union d a b) := by cases h <;> rfl
  rw [Machine.reportedError_eq, hcauses, causes, firstError_cons _ (List.isSublist_iff_sublist.1 rfl),
    firstError_cons _ (List.isSublist_iff_sublist.1 rfl),
    firstError_cons _ (List.isSublist_iff_sublist.1 rfl), firstError_nil]
  simp only [Bool.or_eq_true, decide_eq_true_eq, beq_iff_eq, bne_iff_ne, or_assoc]

theorem slotsAfter_eq (h : Combines d a b i f g) (s : State) :
    slotsAfter i s = (s.setSlot d (combined f d a b s)).slots := by
  cases h <;> rfl

theorem slot_after (h : Combines d a b i f g) (hd : d.toNat < s.slots.length) :
    (s.after i).slot d = combined f d a b s :=
  (slot_eq_of_slots_eq (h.slotsAfter_eq s) d).trans (State.slot_setSlot_self _ hd)

theorem keepsOtherSlots_after (h : Combines d a b i f g) (s : State) :
    KeepsOtherSlots d s (s.after i) := fun j hj =>
  (congrArg (·[j]?) (h.slotsAfter_eq s)).trans (State.slots_setSlot_ne s d _ j hj)

/-- ACC, RESULT and T are in none of the two instructions' columns (R31). -/
theorem writes_eq_false (h : Combines d a b i f g) :
    writesAcc i = false ∧ writesResult i = false ∧ writesT i = false := by
  cases h <;> exact ⟨rfl, rfl, rfl⟩

theorem raises_badSlot (h : Combines d a b i f g)
    (hn : s.slots.length ≤ d.toNat ∨ s.slots.length ≤ a.toNat ∨ s.slots.length ≤ b.toNat) :
    Raises i .badSlot s :=
  raises_of_reportedError ((h.reportedError_eq s).trans (if_pos hn)) (by decide)

theorem raises_notConfigured (h : Combines d a b i f g) (hd : d.toNat < s.slots.length)
    (ha : a.toNat < s.slots.length) (hb : b.toNat < s.slots.length)
    (hm : (s.slot a).m = 0#32 ∨ (s.slot b).m = 0#32) : Raises i .notConfigured s := by
  refine raises_of_reportedError ?_ (by decide)
  rw [h.reportedError_eq, if_neg (by omega), if_pos hm]

theorem raises_incompatibleFilter (h : Combines d a b i f g) (hd : d.toNat < s.slots.length)
    (hma : (s.slot a).m ≠ 0#32) (hmb : (s.slot b).m ≠ 0#32) (hab : (s.slot a).m ≠ (s.slot b).m) :
    Raises i .incompatibleFilter s := by
  obtain ⟨ha, -⟩ := usable_of_m_ne_zero hma
  obtain ⟨hb, -⟩ := usable_of_m_ne_zero hmb
  refine raises_of_reportedError ?_ (by decide)
  rw [h.reportedError_eq, if_neg (by omega), if_neg (not_or.2 ⟨hma, hmb⟩), if_pos hab]

/-! ### Two filters of equal `M` -/

section EqualM

variable (h : Combines d a b i f g) (hd : d.toNat < s.slots.length) (hm : (s.slot a).m ≠ 0#32)
  (hab : (s.slot a).m = (s.slot b).m)

include h hd hm

include hab in
theorem exec_eq_after : exec i s = .next (s.after i) := by
  obtain ⟨ha, -⟩ := usable_of_m_ne_zero hm
  obtain ⟨hb, hmb⟩ := usable_of_m_ne_zero (hab ▸ hm)
  refine exec_of_no_error ?_
  rw [h.reportedError_eq, if_neg (by omega), if_neg (not_or.2 ⟨hm, hmb⟩), if_neg (not_not.2 hab)]

include hab in
/-- The success of R180 and R181: the filter built, and the frame. -/
theorem exists_exec : ∃ t, exec i s = .next t ∧
    (t.slot d).m = (s.slot a).m ∧ (t.slot d).k = (s.slot a).k ∧
    (∀ w, w < (s.slot a).m.toNat / 32 →
      (t.slot d).read w = f ((s.slot a).read w) ((s.slot b).read w)) ∧
    (∀ w, (s.slot a).m.toNat / 32 ≤ w → (t.slot d).read w = (s.slot d).read w) ∧
    KeepsOtherSlots d s t ∧ Succeeded s t ∧ tOf t.status = tOf s.status ∧
    t.acc = s.acc ∧ t.result = s.result := by
  obtain ⟨hacc, hresult, ht⟩ := h.writes_eq_false
  refine ⟨s.after i, h.exec_eq_after hd hm hab, ?_, ?_, fun w hw => ?_, fun w hw => ?_,
    h.keepsOtherSlots_after s, succeeded_after i s, (tOf_after i s).trans (tAfter_of_not_writesT ht s),
    accAfter_of_not_writesAcc hacc s.acc, resultAfter_of_not_writesResult hresult s⟩
  · rw [h.slot_after hd, combined_m]
  · rw [h.slot_after hd, combined_k]
  · rw [h.slot_after hd, read_combined, if_pos hw]
  · rw [h.slot_after hd, read_combined, if_neg hw.not_gt]

/-- A legal `M` is a number of whole words, so each bit below it is combined (R24, R185). -/
theorem bit_after (hi : s.Inv) {p : Nat} (hp : p < (s.slot a).m.toNat) :
    ((s.after i).slot d).bit p = g ((s.slot a).bit p) ((s.slot b).bit p) := by
  obtain ⟨-, hslots, -, -⟩ := hi
  obtain ⟨hlegal, -⟩ := hslots _ (State.slot_mem (usable_of_m_ne_zero hm).1)
  obtain ⟨hmod, -⟩ := legal_of_configured hlegal hm
  have hw : p / 32 < (s.slot a).m.toNat / 32 := by omega
  rw [h.slot_after hd, Slot.bit_eq, read_combined, if_pos hw, h.getLsbD, Slot.bit_eq, Slot.bit_eq]

theorem exec_test_after : exec (.test d) (s.after i) = .next ((s.after i).after (.test d)) := by
  refine exec_test_of_usable (usable_of_m_ne_zero ?_)
  rwa [h.slot_after hd, combined_m]

/-- TEST of the result gives the combination of the sources' bits at the first source's positions
(R184, R185). -/
theorem testOutcome_after (hi : s.Inv) : testOutcome d (s.after i) = true ↔
    ∀ p ∈ (s.slot a).positions s.acc, g ((s.slot a).bit p) ((s.slot b).bit p) = true := by
  have hacc : (s.after i).acc = s.acc := accAfter_of_not_writesAcc h.writes_eq_false.1 s.acc
  have hpos : ((s.after i).slot d).positions (s.after i).acc = (s.slot a).positions s.acc := by
    rw [hacc, h.slot_after hd, positions_combined]
  rw [testOutcome_eq_true_iff, hpos]
  refine forall₂_congr fun p hp => ?_
  rw [h.bit_after hd hm hi (position_lt_of_mem_positions hm hp)]

theorem result_test_after (hi : s.Inv) : ((s.after i).after (.test d)).result = 1#32 ↔
    ∀ p ∈ (s.slot a).positions s.acc, g ((s.slot a).bit p) ((s.slot b).bit p) = true :=
  result_test_eq_one_iff.trans (testOutcome_eq_true_iff.symm.trans (h.testOutcome_after hd hm hi))

end EqualM

end Combines

/-- Settles O34: the first check that fails is raised, and otherwise UNION builds the OR of its sources'
old words in its slot. -/
theorem unionIsWordwiseOr : Obligations.UnionIsWordwiseOr := by
  refine ⟨fun x a b => decode_of_encode_word (packT_eq .union x a b) rfl, reservedFieldRaises .union,
    fun d a b s => ?_⟩
  have h : Combines d a b _ _ _ := .union
  exact ⟨h.raises_badSlot, fun hd ha hb => ⟨h.raises_notConfigured hd ha hb,
    h.raises_incompatibleFilter hd, h.exists_exec hd⟩⟩

/-- Settles O35: as for UNION, with AND. -/
theorem intersectIsWordwiseAnd : Obligations.IntersectIsWordwiseAnd := by
  refine ⟨fun x a b => decode_of_encode_word (packT_eq .intersect x a b) rfl,
    reservedFieldRaises .intersect, fun d a b s => ?_⟩
  have h : Combines d a b _ _ _ := .intersect
  exact ⟨h.raises_badSlot, fun hd ha hb => ⟨h.raises_notConfigured hd ha hb,
    h.raises_incompatibleFilter hd, h.exists_exec hd⟩⟩

/-! ### Different hash counts (R182) -/

/-- The positions for a smaller count are among those for a larger one (R134). -/
theorem Slot.positions_subset {x y : Slot} (hm : x.m = y.m) (hk : x.k.toNat ≤ y.k.toNat) (key : Word) :
    x.positions key ⊆ y.positions key := by
  intro p hp
  obtain ⟨i, hi, rfl⟩ := Slot.mem_positions.1 hp
  exact Slot.mem_positions.2 ⟨i, hi.trans_le hk, by rw [hm]⟩

/-- Two filters of 32 bits, and the key in ACC with the positions 1 and 9: slot 0 has `k = 2` and no bit
set, and slot 1 has `k = 1` and holds the key. -/
def fewerHashesInSecond : State :=
  { State.reset with
    acc := 1#32
    slots := [⟨32#32, 2#16, []⟩, ⟨32#32, 1#16, [(0, 2#32)]⟩, Slot.empty] }

/-- TEST of the union of the two reads position 9, which ADD to slot 1 never sets. -/
theorem union_test_fewerHashesInSecond :
    fewerHashesInSecond.Inv ∧
      ((fewerHashesInSecond.after (.union 2#4 0#4 1#4)).after (.test 2#4)).result = 0#32 := by
  decide

/-- Settles O36: the result has the first source's positions, which are among the second's when those are
as many or more; with fewer, the state `fewerHashesInSecond` gives a TEST of 0. -/
theorem unionOfDifferentHashCounts : Obligations.UnionOfDifferentHashCounts := by
  refine ⟨fun d a b s hi hd ha hb hm hab => ?_, ?_⟩
  · have h : Combines d a b _ _ _ := .union
    refine ⟨_, h.exec_eq_after hd hm hab, errOf_after _ s, by rw [h.slot_after hd, combined_k],
      fun hk hset => ⟨_, h.exec_test_after hd hm, (h.result_test_after hd hm hi).2 fun p hp => ?_⟩⟩
    exact Bool.or_eq_true_iff.2 (.inr (List.all_eq_true.1 hset p (Slot.positions_subset hab hk _ hp)))
  · have h : Combines 2#4 0#4 1#4 _ _ _ := .union
    obtain ⟨hinv, hresult⟩ := union_test_fewerHashesInSecond
    exact ⟨2#4, 0#4, 1#4, fewerHashesInSecond, _, _, hinv, by decide, by decide, by decide,
      h.exec_eq_after (by decide) (by decide) (by decide), errOf_after _ _,
      h.exec_test_after (by decide) (by decide), errOf_after _ _, hresult⟩

/-! ### Members of a union and of an intersection (R184, R185) -/

/-- A key that either of two filters of equal `M` and `K` holds is a member of their UNION. -/
theorem exists_union_test {d a b : SlotNo} {s : State} (hi : s.Inv) (hd : d.toNat < s.slots.length)
    (hm : (s.slot a).m ≠ 0#32) (hab : (s.slot a).m = (s.slot b).m) (hk : (s.slot a).k = (s.slot b).k)
    (hset : (s.slot a).allSet ((s.slot a).positions s.acc) = true ∨
      (s.slot b).allSet ((s.slot b).positions s.acc) = true) :
    ∃ t u, exec (.union d a b) s = .next t ∧ exec (.test d) t = .next u ∧ u.result = 1#32 ∧
      tOf u.status = true ∧ errOf u.status = 0#4 := by
  have h : Combines d a b _ _ _ := .union
  have hbits : ∀ p ∈ (s.slot a).positions s.acc, ((s.slot a).bit p || (s.slot b).bit p) = true := by
    intro p hp
    have hsub := Slot.positions_subset hab (congrArg BitVec.toNat hk).le s.acc
    exact Bool.or_eq_true_iff.2 (hset.imp (List.all_eq_true.1 · p hp)
      (List.all_eq_true.1 · p (hsub hp)))
  exact ⟨_, _, h.exec_eq_after hd hm hab, h.exec_test_after hd hm,
    (h.result_test_after hd hm hi).2 hbits,
    (tOf_after _ _).trans ((h.testOutcome_after hd hm hi).2 hbits), errOf_after _ _⟩

/-- HLOAD and ADD leave a legal state in which the slot holds the key in ACC, and keep every filter. -/
theorem exists_hload_add {n : SlotNo} {s : State} (hi : s.Inv) (hn : Usable s n) (key : Word) :
    ∃ t, runCommands [encode (.hload key), encode (.add n)] s = .next t ∧ t.Inv ∧
      t.slots.length = s.slots.length ∧ (∀ j, (s.slot j).KeepsFilter (t.slot j)) ∧
      (t.slot n).allSet ((t.slot n).positions t.acc) = true := by
  have hload := exec_of_errorsOf_nil (i := .hload key) rfl s
  have hadd := exec_of_no_error (reportedError_add_of_usable (s := s.after (.hload key)) hn)
  obtain ⟨-, hbits⟩ := usable_and_bits_of_add hadd (errOf_after _ _)
  exact ⟨_, (runCommands_encode_cons hload [.add n]).trans (runCommands_encode_cons hadd []),
    inv_exec (inv_exec hi hload) hadd, length_slotsAfter (.add n) (s.after (.hload key)),
    fun j => keepsFilter_of_exec (s := s.after (.hload key)) hadd rfl, List.all_eq_true.2 hbits⟩

/-- Settles O38: OR keeps every position that is set in either source; and an ADD just before sets the
key's positions in one of them. -/
theorem unionKeepsEveryMember : Obligations.UnionKeepsEveryMember := by
  intro d a b s hi hd ha hb hm hab hk
  refine ⟨exists_union_test hi hd hm hab hk, fun who key hwho => ?_⟩
  have husable : Usable s who := by
    rcases hwho with rfl | rfl
    · exact ⟨ha, hm⟩
    · exact ⟨hb, hab ▸ hm⟩
  obtain ⟨t, ht, hinv, hlen, hkeep, hset⟩ := exists_hload_add hi husable key
  obtain ⟨u, v, hu, hv, hmember⟩ := exists_union_test (d := d) (a := a) (b := b) hinv (hlen ▸ hd)
    ((hkeep a).m ▸ hm) (by rw [(hkeep a).m, (hkeep b).m, hab]) (by rw [(hkeep a).k, (hkeep b).k, hk])
    (hwho.elim (fun h => .inl (h ▸ hset)) (fun h => .inr (h ▸ hset)))
  exact ⟨v, (runCommands_append ht).trans
    ((runCommands_encode_cons hu [.test d]).trans (runCommands_encode_cons hv [])), hmember⟩

/-- Settles O39: each bit of the result is the AND of the sources' bits, and the result has their
positions. -/
theorem intersectionTestIsAnd : Obligations.IntersectionTestIsAnd := by
  intro d a b s hi hd ha hb hm hab hk
  have h : Combines d a b _ _ _ := .intersect
  refine ⟨_, _, h.exec_eq_after hd hm hab, h.exec_test_after hd hm, errOf_after _ _,
    fun p hp => h.bit_after hd hm hi hp, ?_⟩
  simpa only [Bool.and_eq_true] using h.result_test_after hd hm hi

end Sys2Proof.Machine

/-! ## The control command NOP (R200) -/

namespace Sys2Proof.Machine

/-- Settles O10: NOP has no error, and its columns write none of T, ACC, RESULT and the slots. -/
theorem nopChangesOnlyErr : Obligations.NopChangesOnlyErr :=
  ⟨decode_eq_ok_iff_word (i := .nop) rfl, reservedFieldRaises .nop, fun s =>
    ⟨s.after .nop, exec_of_errorsOf_nil rfl s, succeeded_after _ s, tOf_after _ s, rfl, rfl, rfl⟩⟩

end Sys2Proof.Machine

/-! ## Errors and STATUS (R212 to R216) -/

namespace Sys2Proof.Machine

/-! ### The outcome of a command -/

/-- A command raised an error, or its instruction's columns give the state. -/
theorem runCommand_outcome {c : Command} {s t : State} (h : runCommand c s = .next t) :
    (∃ e, e ≠ .none ∧ t = s.raised e) ∨ ∃ i, decode c = .ok i ∧ t = s.after i := by
  rcases runCommand_inv h with ⟨-, -, ht⟩ | ⟨i, hi, hexec⟩
  · exact .inl ⟨.illegalCommand, by decide, ht⟩
  · rcases exec_inv hexec with ⟨he, ht⟩ | ⟨-, ht⟩
    · exact .inl ⟨_, he, ht⟩
    · exact .inr ⟨i, hi, ht⟩

/-- R212, of the state that `raise` answers. -/
theorem raised_satisfies_raised (e : ErrorCode) (s : State) : Raised e s (s.raised e) := by
  obtain ⟨t, ht, h⟩ := raise_raised s e
  obtain rfl : t = s.raised e := raise_inj ht
  exact h

@[simp] theorem stickyOf_raised (e : ErrorCode) (s : State) :
    stickyOf (s.raised e).status = true := stickyOf_statusRaised _ _

@[simp] theorem stickyOf_after (i : Instr) (s : State) :
    stickyOf (s.after i).status = stickyOf s.status := stickyOf_packStatus _ _ _

/-- TEST alone writes T (R215). -/
theorem exists_eq_test_of_tAfter_ne {i : Instr} {s : State} (h : tAfter i s ≠ tOf s.status) :
    ∃ n, i = .test n := by
  cases i with
  | test n => exact ⟨n, rfl⟩
  | _ => exact absurd rfl h

/-- Settles O41: only `raise` leaves an error code, and it writes STATUS alone. -/
theorem raiseChangesOnlyStatus : Obligations.RaiseChangesOnlyStatus := by
  intro c s t h herr
  rcases runCommand_outcome h with ⟨e, he, rfl⟩ | ⟨i, -, rfl⟩
  · exact ⟨⟨e, he, raised_satisfies_raised e s⟩, _, finishCommand_of_next h,
      ⟨rfl, rfl, rfl, rfl, rfl⟩, rfl, rfl⟩
  · exact absurd (errOf_after i s) herr

/-- Settles O42: an instruction's columns keep STICKY, and TEST's alone write T, which `raise` keeps. -/
theorem successKeepsStickyAndT : Obligations.SuccessKeepsStickyAndT := by
  intro c s t h
  rcases runCommand_outcome h with ⟨e, he, rfl⟩ | ⟨i, hi, rfl⟩
  · exact ⟨fun herr => absurd ((code_eq_zero_iff e).1 (errOf_raised e s ▸ herr)) he,
      fun hT => absurd (tOf_raised e s) hT⟩
  · refine ⟨fun _ => stickyOf_after i s, fun hT => ⟨errOf_after i s, ?_⟩⟩
    obtain ⟨n, rfl⟩ := exists_eq_test_of_tAfter_ne (tOf_after i s ▸ hT)
    exact ⟨n, hi⟩

/-! ### The error reported (R216) -/

/-- ERR after an instruction is the code of the error that R216 reports. -/
theorem exists_exec_errOf (i : Instr) (s : State) :
    ∃ t, exec i s = .next t ∧ errOf t.status = (reportedError i s).code := by
  by_cases he : reportedError i s = .none
  · exact ⟨_, exec_of_no_error he, by rw [errOf_after, he]; rfl⟩
  · exact ⟨_, exec_of_error he, errOf_raised _ s⟩

/-- Settles O43: an instruction raises the reported error, whose causes are its table row's, and a
command that does not decode raises ILLEGAL_COMMAND before any cause is looked at. -/
theorem firstApplicableErrorIsReported : Obligations.FirstApplicableErrorIsReported :=
  ⟨exists_exec_errOf, fun i _ => by cases i <;> rfl, fun _ s _ h => commandRaises_of_decode_error h s⟩

/-! ### STICKY over a sequence of commands (R213) -/

/-- STICKY stays 0 at a command that does not raise, and at no other. -/
theorem stickyOf_eq_false_iff_of_runCommand {c : Command} {s t : State}
    (h : runCommand c s = .next t) :
    stickyOf t.status = false ↔ stickyOf s.status = false ∧ errOf t.status = 0#4 := by
  rcases runCommand_outcome h with ⟨e, he, rfl⟩ | ⟨i, -, rfl⟩
  · simp [code_eq_zero_iff, he]
  · simp

/-- ERR is 0 after each command of the sequence that runs from `s`. -/
def NoneRaises (cs : List Command) (s : State) : Prop :=
  ∀ (before after : List Command) (c : Command) (u : State), cs = before ++ c :: after →
    runCommands (before ++ [c]) s = .next u → errOf u.status = 0#4

theorem noneRaises_nil (s : State) : NoneRaises [] s := fun before after c _ h =>
  absurd h.symm (List.append_ne_nil_of_right_ne_nil before (List.cons_ne_nil c after))

theorem noneRaises_cons_iff {c : Command} {cs : List Command} {s t : State}
    (h : runCommand c s = .next t) :
    NoneRaises (c :: cs) s ↔ errOf t.status = 0#4 ∧ NoneRaises cs t := by
  constructor
  · intro hall
    refine ⟨hall [] cs c t rfl (runCommands_cons h), fun before after d u hcs hu => ?_⟩
    exact hall (c :: before) after d u (by rw [hcs, List.cons_append])
      ((runCommands_cons h).trans hu)
  · rintro ⟨herr, hall⟩ before after d u hcs hu
    cases before with
    | nil =>
      obtain ⟨rfl, -⟩ := List.cons.inj hcs
      rwa [← Host.Outcome.next.inj ((runCommands_cons h).symm.trans hu)]
    | cons b before =>
      obtain ⟨rfl, hrest⟩ := List.cons.inj hcs
      exact hall before after d u hrest ((runCommands_cons h).symm.trans hu)

/-- Every sequence of commands completes, with STICKY 0 exactly when it was 0 before and none raised. -/
theorem exists_runCommands_stickyOf (cs : List Command) (s : State) :
    ∃ t, runCommands cs s = .next t ∧
      (stickyOf t.status = false ↔ stickyOf s.status = false ∧ NoneRaises cs s) := by
  induction cs generalizing s with
  | nil => exact ⟨s, rfl, (and_iff_left (noneRaises_nil s)).symm⟩
  | cons c cs ih =>
    obtain ⟨u, hu⟩ := exists_runCommand_eq_next c s
    obtain ⟨t, ht, hsticky⟩ := ih u
    refine ⟨t, (runCommands_cons hu).trans ht, ?_⟩
    rw [hsticky, stickyOf_eq_false_iff_of_runCommand hu, noneRaises_cons_iff hu, and_assoc]

/-- Settles O44: each command keeps STICKY at 0 exactly when it does not raise, and reset clears it. -/
theorem stickyTellsWhetherAnyRaised : Obligations.StickyTellsWhetherAnyRaised := by
  intro cfg cs
  obtain ⟨t, ht, hsticky⟩ := exists_runCommands_stickyOf cs (State.resetOf cfg)
  have hreset : stickyOf (State.resetOf cfg).status = false := by
    show stickyOf 0#32 = false
    decide
  exact ⟨t, ht, hsticky.trans (and_iff_right hreset)⟩

/-! ### Rest and reset between commands (R221, R240) -/

/-- With no command running and nothing offered, a step is a rest (log entry 10). -/
theorem step_rests {s : State} (hp : s.port.phase.isExecuting = false) (hs : s.stream = []) :
    step s = .next s.rest := by
  unfold step nextEvent
  split
  · next hexec => rw [hexec] at hp; cases hp
  · rw [hs]

/-- A reset at the head of the stream takes effect between commands (log entry 17). -/
theorem step_resets {s : State} {es : List HostEvent} (hp : s.port.phase.isExecuting = false)
    (hs : s.stream = .reset :: es) :
    step s = .next (State.resetEdge { s with stream := es } none) := by
  unfold step nextEvent
  split
  · next hexec => rw [hexec] at hp; cases hp
  · rw [hs]

/-- With no command in progress a reset abandons nothing. -/
theorem abandon_of_not_executing {s : State} (hp : s.port.phase.isExecuting = false) :
    s.abandon = s := by
  unfold State.abandon
  split
  · next hexec => rw [hexec] at hp; cases hp
  · rfl

/-- Settles O7: a rest writes the port alone, and a reset that abandons nothing keeps every storage
word. -/
theorem stepRestsOrResets : Obligations.StepRestsOrResets := by
  refine ⟨fun s hp hs => ⟨s.rest, step_rests hp hs, ⟨rfl, rfl, rfl, rfl, rfl⟩, hs, rfl⟩,
    fun s es hp hs => ⟨_, step_resets hp hs, rfl, rfl, rfl, ?_⟩⟩
  rw [State.resetEdge_slots, State.resetEdge_wMax, State.resetEdge_stream,
    abandon_of_not_executing (s := { s with stream := es }) hp]
  exact ⟨rfl, rfl, rfl⟩

end Sys2Proof.Machine

/-! ## Reset and hazards (R240 to R248) -/

namespace Sys2Proof.Machine

/-! ### Reset -/

/-- An edge with `rst = 1` has its effect whatever the host offers (R240). -/
theorem edge_of_rst {i : PortInputs} (hr : i.rst = true) (s : State) :
    edge i s = .next (s.resetEdge i.offer) := if_pos hr

/-- A reset in the middle of a command leaves free the words that the command was to change (log entry 7). -/
theorem slots_abandon_of_executing {c : Command} {n : Nat} {s u : State}
    (hphase : s.port.phase = .executing c n) (hu : runCommand c s = .next u) :
    s.abandon.slots =
      List.zipWith (fun x y => x.abandoned y s.wMax (Config.abandonedWord s)) s.slots u.slots := by
  simp only [State.abandon, hphase, hu]

theorem length_slots_abandon (s : State) : s.abandon.slots.length = s.slots.length := by
  by_cases hp : s.port.phase.isExecuting = false
  · rw [abandon_of_not_executing hp]
  · simp only [isExecuting_eq_false_iff, not_forall, not_not] at hp
    obtain ⟨c, n, hphase⟩ := hp
    obtain ⟨u, hu⟩ := exists_runCommand_eq_next c s
    obtain ⟨-, hlen, -, -⟩ := keepsMachine_of_runCommand hu
    rw [slots_abandon_of_executing hphase hu, List.length_zipWith, hlen, min_self]

theorem length_slots_resetEdge (s : State) (o : Option Command) :
    (s.resetEdge o).slots.length = s.slots.length := by
  rw [State.resetEdge_slots, List.length_map, length_slots_abandon]

/-- A word that the abandoned command was not to change is kept. -/
theorem read_slot_abandon {c : Command} {n : Nat} {s u : State}
    (hphase : s.port.phase = .executing c n) (hu : runCommand c s = .next u) {j : SlotNo} {w : Nat}
    (hw : (u.slot j).read w = (s.slot j).read w) :
    (s.abandon.slot j).read w = (s.slot j).read w := by
  obtain ⟨-, hlen, -, -⟩ := keepsMachine_of_runCommand hu
  rcases Nat.lt_or_ge j.toNat s.slots.length with hj | hj
  · have hslot : s.abandon.slot j =
        (s.slot j).abandoned (u.slot j) s.wMax (Config.abandonedWord s) := by
      have hja : j.toNat < s.abandon.slots.length := by rwa [length_slots_abandon]
      rw [State.slot_eq_getElem hja, State.slot_eq_getElem hj, State.slot_eq_getElem (hlen ▸ hj)]
      simp only [slots_abandon_of_executing hphase hu, List.getElem_zipWith]
    rw [hslot, read_abandoned, if_neg fun h => h.2 hw]
  · rw [State.slot_of_length_le hj,
      State.slot_of_length_le ((length_slots_abandon s).trans_le hj)]

theorem slot_resetEdge (s : State) (o : Option Command) (j : SlotNo) :
    (s.resetEdge o).slot j = (s.abandon.slot j).unconfigure :=
  List.getD_map (d := Slot.empty) ..

/-- Settles O50: the reset state's own fields, and every one of its slots is the empty one. -/
theorem resetValues : Obligations.ResetValues := by
  refine fun cfg => ⟨rfl, rfl, rfl, List.length_replicate, rfl, fun x hx => ?_, rfl⟩
  obtain rfl := List.eq_of_mem_replicate hx
  exact ⟨rfl, rfl⟩

/-- Settles O51: a reset edge unconfigures what the abandoned command leaves of the slots, which keeps
every word where no command runs, and else every word that the command was not to change. -/
theorem resetEdgeFromAnyState : Obligations.ResetEdgeFromAnyState := by
  intro i s hr
  refine ⟨by simp [outputs, hr], by simp [outputs, hr], s.resetEdge i.offer, edge_of_rst hr s,
    rfl, rfl, rfl, fun x hx => ?_, length_slots_resetEdge s _, State.abandon_wMax s,
    State.abandon_stream s, rfl, rfl, fun hp => ?_, fun c n u hphase hu j w hw => ?_, rfl⟩
  · obtain ⟨y, -, rfl⟩ := List.mem_map.1 hx
    exact ⟨rfl, rfl⟩
  · rw [State.resetEdge_slots, abandon_of_not_executing hp]
    rfl
  · rw [slot_resetEdge]
    exact read_slot_abandon hphase hu hw

/-! ### Every sequence of commands completes (R247) -/

/-- Settles O45: each command answers a next state, so every sequence does. -/
theorem everyCommandCompletes : Obligations.EveryCommandCompletes := fun cs s =>
  let ⟨t, ht, _⟩ := exists_runCommands_stickyOf cs s
  ⟨t, ht⟩

/-! ### Storage before reset is never visible (R241) -/

theorem runCommands_withRest (cs : List Command) (s : State) (p : Port) (es : List HostEvent) :
    runCommands cs { s with port := p, stream := es } = withRest p es (runCommands cs s) := by
  induction cs generalizing s with
  | nil => rfl
  | cons c cs ih =>
    obtain ⟨t, ht⟩ := exists_runCommand_eq_next c s
    rw [runCommands_cons ht, ← ih t]
    exact runCommands_cons ((runCommand_withRest c s p es).trans (congrArg _ ht))

/-- A sequence of commands never lets a word that is not visible be seen (R26). -/
theorem exists_runCommands_sameVisible (cs : List Command) {s s' : State} (hi : s.Inv) (hi' : s'.Inv)
    (h : s.SameVisible s') :
    ∃ t t', runCommands cs s = .next t ∧ runCommands cs s' = .next t' ∧ t.SameVisible t' := by
  induction cs generalizing s s' with
  | nil => exact ⟨s, s', rfl, rfl, h⟩
  | cons c cs ih =>
    obtain ⟨u, u', hu, hu', hvis⟩ := invisibleWordsNeverMatter c s s' hi hi' h
    rw [runCommands_cons hu, runCommands_cons hu']
    exact ih (inv_runCommand hi hu) (inv_runCommand hi' hu') hvis

/-- A slot that is not configured shows no word (R26). -/
theorem wordCount_unconfigure (x : Slot) : x.unconfigure.wordCount = 0 := by
  simp [Slot.wordCount, Slot.bitCount, Slot.unconfigure]

theorem sameVisible_unconfigure (x y : Slot) : x.unconfigure.SameVisible y.unconfigure :=
  ⟨rfl, rfl, fun w hw => absurd (wordCount_unconfigure x ▸ hw) (Nat.not_lt_zero w)⟩

theorem sameVisible_slots_resetEdge {s s' : State} (o o' : Option Command)
    (hlen : s.slots.length = s'.slots.length) :
    List.Forall₂ Slot.SameVisible (s.resetEdge o).slots (s'.resetEdge o').slots := by
  simp only [State.resetEdge_slots, List.forall₂_map_left_iff, List.forall₂_map_right_iff]
  refine List.forall₂_iff_zip.2 ⟨?_, fun _ => sameVisible_unconfigure _ _⟩
  rw [length_slots_abandon, length_slots_abandon, hlen]

/-- Settles O53: after reset no slot shows a word, and commands keep what is shown the same. The two
ports and streams may differ; no command reads them, so the second run is compared with those of the
first. -/
theorem storageBeforeResetIsUnobservable : Obligations.StorageBeforeResetIsUnobservable := by
  intro i s s' t t' cs hi hi' hr hlen hw ht ht'
  obtain rfl := Host.Outcome.next.inj ((edge_of_rst hr s).symm.trans ht)
  obtain rfl := Host.Outcome.next.inj ((edge_of_rst hr s').symm.trans ht')
  have hvis : (s.resetEdge i.offer).SameVisible
      { s'.resetEdge i.offer with
        port := (s.resetEdge i.offer).port, stream := (s.resetEdge i.offer).stream } :=
    ⟨rfl, rfl, rfl, by simpa using hw, rfl, rfl, sameVisible_slots_resetEdge _ i.offer hlen⟩
  obtain ⟨u, v, hu, hv, hacc, hres, hst, -, -, -, hslots⟩ :=
    exists_runCommands_sameVisible cs (inv_resetEdge _ hi)
      (inv_withPort (inv_resetEdge _ hi') (s.resetEdge i.offer).port _ fun _ => rfl) hvis
  obtain ⟨u', hu'⟩ := everyCommandCompletes cs (s'.resetEdge i.offer)
  rw [runCommands_withRest, hu'] at hv
  obtain rfl := Host.Outcome.next.inj hv
  exact ⟨u, u', hu, hu', hacc, hres, hst, hslots⟩

/-! ### A broken hold (R246) -/

theorem offerHeld_eq_false_iff {s : State} {i : PortInputs} :
    offerHeld s i = false ↔ ∃ c, s.port.offered = some c ∧ i.offer ≠ some c := by
  unfold offerHeld
  cases s.port.offered with
  | none => simp
  | some c => simp

/-- An edge without `rst` at which the host held its offer is never stuck: a command that completes
answers a next state, and the port moves by itself. -/
theorem exists_runEdge_eq_next (i : PortInputs) (s : State) : ∃ t, runEdge i s = .next t := by
  unfold runEdge
  split
  · split
    · exact ⟨_, rfl⟩
    · exact ⟨_, rfl⟩
  · next c _ =>
    obtain ⟨u, hu⟩ := exists_runCommand_eq_next c s
    exact ⟨_, by rw [completeEdge, hu]⟩
  all_goals exact ⟨_, rfl⟩

theorem edge_of_not_held {i : PortInputs} {s : State} (hr : i.rst = false)
    (hheld : offerHeld s i = false) : edge i s = .refused .offerNotHeld := by simp [edge, hr, hheld]

/-- Settles O57: a reset edge and an edge of a held offer answer a next state, and a broken hold is
refused. -/
theorem onlyABrokenHoldIsRefused : Obligations.OnlyABrokenHoldIsRefused := by
  intro i s
  simp only [← offerHeld_eq_false_iff]
  cases hr : i.rst with
  | true => simp [edge_of_rst hr]
  | false =>
    cases hheld : offerHeld s i with
    | true =>
      obtain ⟨t, ht⟩ := exists_runEdge_eq_next i s
      simp [edge_of_held hr hheld, ht]
    | false => simp [edge_of_not_held hr hheld, eq_comm]

end Sys2Proof.Machine
